-- ==== Sys2Proof/Config.lean ====
section
/-! DEFINITION. What one implementation of the core fixes (00_scope.md rule R7): the two width parameters.

The two alphabet tables, the other parameter of rule R7, stand in Machine/Tables.lean with the default contents of
42_alphabet_mapper.md rule R154, where a later repair may mend them.
The model has NO free value: the spec leaves no result of an instruction open (log entry 18). -/

namespace Sys2Proof

/-- `W_IDX` (rule R7, D7): the width of N, MAX_OUT, CONSUMED, COUNT and the cursor. DESIGN CHOICE: the spec's default
(log entry 1). -/
abbrev Config.wIdx : Nat := 32

/-- `W_INT` (rule R7, D7): the width of REQIN's argument and result. DESIGN CHOICE: the spec's default
(log entry 1). -/
abbrev Config.wInt : Nat := 32

end Sys2Proof
end

