-- ==== Sys2Proof/Word.lean ====
section
/-! DEFINITION. The word types of the core. -/

namespace Sys2Proof

/-- A 64-bit word: a command or response word (30_encoding.md rules R79, R81), or the binary64 pattern of a sample or
of a rate (rule R70). -/
abbrev Word := BitVec 64

/-- One element of the output buffer (20_memory.md rule R52), one entry of an alphabet table. -/
abbrev Byte := BitVec 8

/-- A window or output index or a count: `W_IDX` bits, unsigned (10_state.md rules R30 to R32). -/
abbrev Index := BitVec Config.wIdx

/-- REQIN's argument and result: `W_INT` bits, two's complement (30_encoding.md rule R79). -/
abbrev HostInt := BitVec Config.wInt

/-- A 5-bit Baudot code word; bit k is the data bit received k-th (30_encoding.md rule R72). -/
abbrev Code := BitVec 5

end Sys2Proof
end

