-- ==== Sys2Proof/Syntax.lean ====
section
/-! DEFINITION. The instructions: one constructor for each row of spec/opcode_table.json.

The core has no instruction stream (00_scope.md rule R1). Its instructions are the seven step kinds of the frame
state machine, the three operations of the alphabet mapper and the four host commands. -/

namespace Sys2Proof

/-- One constructor per row of spec/opcode_table.json, in the table's order. -/
inductive Instr where
  /-- START_HIT (41_frame_decoder.md rule R121): a start edge is detected. -/
  | startHit
  /-- START_MISS (rule R122): no start edge at this sample. -/
  | startMiss
  /-- DATA_SPACE (rule R124): a data bit at space level. -/
  | dataSpace
  /-- DATA_MARK (rule R123): a data bit at mark level. -/
  | dataMark
  /-- FRAME_COMPLETE (rule R125): the five data bits are taken. -/
  | frameComplete
  /-- STOP_FAIL (rule R127): the stop sample is at space level. -/
  | stopFail
  /-- STOP_MATCH (rule R126): the stop sample is at mark level. -/
  | stopMatch
  /-- MAP_FIGS (42_alphabet_mapper.md rule R151): the figures shift, code 27. -/
  | mapFigs
  /-- MAP_LTRS (rule R152): the letters shift, code 31. -/
  | mapLtrs
  /-- MAP_CHAR (rule R153): any code but 27 and 31. -/
  | mapChar (code : Code)
  /-- CONFIGURE (43_host_commands.md rule R171) with the operands of 30_encoding.md rule R83. -/
  | configure (pol : Bool) (rate baud : Word)
  /-- DECODE (rule R172): the window length N and the output capacity MAX_OUT. -/
  | decode (n maxOut : Index)
  /-- REQIN (rule R173): `desired_output_items`. -/
  | reqin (d : HostInt)
  /-- RESERVED (rule R174): an undefined command word; it keeps the three words it came in, so that an encoder can
  give them back. -/
  | reserved (w0 w1 w2 : Word)
  deriving DecidableEq, Repr

end Sys2Proof
end

