-- ==== Sys2Proof/WellFormed.lean ====
section
/-! DEFINITION. Which terms of `Instr` are instructions of the hardware. -/

namespace Sys2Proof

/-- The command words that select RESERVED (30_encoding.md rule R82), written from the rule's table row by row:
OP = 0b11; W0[63:3] ≠ 0; W0[2] ≠ 0 for OP ≠ 0b00; DECODE with a bit of W1 or W2 at W_IDX or above; REQIN with a W1 that is
no sign extension of its low W_INT bits, or with W2 ≠ 0. -/
def reservedWords (w0 w1 w2 : Word) : Bool :=
  let op := w0.extractLsb' 0 2
  op == 0b11#2
    || w0.extractLsb' 3 61 != 0
    || (w0.getLsbD 2 && op != 0b00#2)
    || (op == 0b01#2 && (w1.extractLsb' Config.wIdx (64 - Config.wIdx) != 0
          || w2.extractLsb' Config.wIdx (64 - Config.wIdx) != 0))
    || (op == 0b10#2 && (w1 != (w1.extractLsb' 0 Config.wInt).signExtend 64 || w2 != 0))

/-- A term is well formed when the decoder can give it: MAP_CHAR takes every code but the two shift codes
(42_alphabet_mapper.md rule R153), and RESERVED takes the words of 30_encoding.md rule R82. Every other term is an
instruction at every value of its operands. -/
def wellFormed : Instr → Bool
  | .startHit => true
  | .startMiss => true
  | .dataSpace => true
  | .dataMark => true
  | .frameComplete => true
  | .stopFail => true
  | .stopMatch => true
  | .mapFigs => true
  | .mapLtrs => true
  | .mapChar code => code != 27#5 && code != 31#5
  | .configure _ _ _ => true
  | .decode _ _ => true
  | .reqin _ => true
  | .reserved w0 w1 w2 => reservedWords w0 w1 w2

end Sys2Proof
end

