-- ==== Sys2Proof/Decode.lean ====
section
/-! DEFINITION. The decoders of the three selector spaces of 30_encoding.md (step selector, mapper selector, command
words), total and rejecting by name, and after them the encoder. -/

namespace Sys2Proof

/-- Why a pattern is no instruction. -/
inductive DecodeError where
  /-- A step selector with PH = 0b11 (30_encoding.md rule R82). Raised by `decodeEncoded`; safe. -/
  | reservedPhase
  deriving DecidableEq, Repr

/-- The step decode map of 30_encoding.md rule R77 on the selector {PH, DN, LV} of rule R76. A field the row marks x is
not examined. `none` is the row PH = 0b11. -/
def decodeSelector (sel : BitVec 4) : Option Instr :=
  let ph := sel.extractLsb' 2 2
  let dn := sel.getLsbD 1
  let lv := sel.getLsbD 0
  if ph = 0b00#2 then
    if lv then some .startMiss else some .startHit
  else if ph = 0b01#2 then
    if dn then some .frameComplete
    else if lv then some .dataMark else some .dataSpace
  else if ph = 0b10#2 then
    if lv then some .stopMatch else some .stopFail
  else none

/-- The mapper decode of 30_encoding.md rule R78, the first matching row winning. Every code names an operation. -/
def decodeMapper (code : Code) : Instr :=
  if code = 27#5 then .mapFigs
  else if code = 31#5 then .mapLtrs
  else .mapChar code

/-- The command decode of 30_encoding.md rules R79, R80 and R82 with the operand assembly of rule R83. A command whose
reserved or must-be-0 bits are not 0 is RESERVED, so every three words decode. -/
def decodeCommand (w0 w1 w2 : Word) : Instr :=
  let op := w0.extractLsb' 0 2
  if w0.extractLsb' 3 61 ≠ 0 then .reserved w0 w1 w2
  else if op = 0b00#2 then .configure (w0.getLsbD 2) w1 w2
  else if w0.getLsbD 2 then .reserved w0 w1 w2
  else if op = 0b01#2 then
    let n := w1.extractLsb' 0 Config.wIdx
    let m := w2.extractLsb' 0 Config.wIdx
    if w1 = n.setWidth 64 ∧ w2 = m.setWidth 64 then .decode n m else .reserved w0 w1 w2
  else if op = 0b10#2 then
    let d := w1.extractLsb' 0 Config.wInt
    if w1 = d.signExtend 64 ∧ w2 = 0 then .reqin d else .reserved w0 w1 w2
  else .reserved w0 w1 w2

/-- An instruction's encoding, in the space its row of spec/opcode_table.json belongs to. -/
inductive Encoding where
  /-- A 4-bit step selector SEL (30_encoding.md rule R76). -/
  | selector (sel : BitVec 4)
  /-- A 5-bit mapper selector (rule R78). -/
  | code (c : Code)
  /-- The three command words (rule R79). -/
  | command (w0 w1 w2 : Word)
  deriving DecidableEq, Repr

/-- The decoder over all three spaces. -/
def decodeEncoded : Encoding → Except DecodeError Instr
  | .selector sel =>
    match decodeSelector sel with
    | some i => .ok i
    | none => .error .reservedPhase
  | .code c => .ok (decodeMapper c)
  | .command w0 w1 w2 => .ok (decodeCommand w0 w1 w2)

/-- W0 of a command (30_encoding.md rule R79): the reserved bits 0, then POL, then OP. -/
def commandWord0 (pol : Bool) (op : BitVec 2) : Word :=
  0#61 ++ BitVec.ofBool pol ++ op

/-- The encoder, written from the rows of 30_encoding.md rules R77, R78 and R79. A selector bit that the row marks x is
encoded as 0. -/
def encode : Instr → Encoding
  | .startHit => .selector 0b0000#4
  | .startMiss => .selector 0b0001#4
  | .dataSpace => .selector 0b0100#4
  | .dataMark => .selector 0b0101#4
  | .frameComplete => .selector 0b0110#4
  | .stopFail => .selector 0b1000#4
  | .stopMatch => .selector 0b1001#4
  | .mapFigs => .code 0b11011#5
  | .mapLtrs => .code 0b11111#5
  | .mapChar c => .code c
  | .configure pol rate baud => .command (commandWord0 pol 0b00#2) rate baud
  | .decode n m => .command (commandWord0 false 0b01#2) (n.setWidth 64) (m.setWidth 64)
  | .reqin d => .command (commandWord0 false 0b10#2) (d.signExtend 64) 0
  | .reserved w0 w1 w2 => .command w0 w1 w2

/-- The instruction this decoder reads from a row of spec/opcode_table.json, bits numbered as the table numbers them.

The table holds three selector spaces whose patterns overlap, and in the machine the space is fixed by where the bits
stand (30_encoding.md rules R76, R78, R80), so this function must tell the space from `nbits` and `w` (log entry 14):
* more than 8 bits: a command, W0 in bits 63:0, W1 in bits 127:64, W2 in bits 191:128;
* 8 bits or fewer and the number 3: the RESERVED row, whose fixed bits are OP = 0b11 alone, read as W0;
* else a number below 16 whose PH is a phase: a step selector;
* else a number below 32: a mapper code;
* else: no instruction. -/
def decodeTableWord (nbits w : Nat) : Option Instr :=
  if nbits > 8 then
    some (decodeCommand (BitVec.ofNat 64 w) (BitVec.ofNat 64 (w >>> 64)) (BitVec.ofNat 64 (w >>> 128)))
  else if w = 3 then
    some (decodeCommand 3 0 0)
  else if w < 12 then
    decodeSelector (BitVec.ofNat 4 w)
  else if w < 32 then
    some (decodeMapper (BitVec.ofNat 5 w))
  else none

end Sys2Proof
end

