-- ==== Sys2Proof/Machine/State.lean ====
section
/-! DEFINITION. The state of the core and of what it shares with the host, as plain data, and the state after reset. -/

namespace Sys2Proof.Machine

/-- The control state (10_state.md rule R26). It has no value for the reserved encoding 0b11: "A model's phase type has
no such value" (30_encoding.md rule R82). -/
inductive Phase where
  | awaitingStart
  | framing
  | awaitingStop
  deriving DecidableEq, Repr

/-- `active_table` (10_state.md rule R29). -/
inductive Table where
  | letters
  | figures
  deriving DecidableEq, Repr

/-- The STATUS of a response (60_exceptions.md rule R200). -/
inductive Status where
  | ok
  | invalidConfig
  | notConfigured
  | reservedCommand
  deriving DecidableEq, Repr

/-- The three words of a command (30_encoding.md rule R79). -/
structure Command where
  w0 : Word
  w1 : Word
  w2 : Word
  deriving DecidableEq, Repr

/-- The three words of a response (30_encoding.md rule R81). -/
structure Response where
  r0 : Word
  r1 : Word
  r2 : Word
  deriving DecidableEq, Repr

/-- The sample window WIN (20_memory.md rule R50) as (index, sample word) pairs, strictly rising. An index that is not
listed holds `Window.unlisted`. -/
abbrev Window := List (Nat × Word)

/-- The sample word at a window index that nothing has written. DESIGN CHOICE: +0.0 (log entry 3). -/
def Window.unlisted : Word := 0

/-- The output buffer OUT (20_memory.md rule R52) as (index, byte) pairs, strictly rising. An index that is not listed
holds no byte of the model's: neither the core nor the model's host has written it (log entry 4). -/
abbrev Memory := List Host.Cell

/-- All the state of 10_state.md rule R20, the two memories of 20_memory.md, and the ports of 30_encoding.md rule R87 that
carry the host's input to the core and the core's answer back. -/
structure State where
  /-- `configured` (rule R21). -/
  configured : Bool
  /-- `CFG_RATE` (rule R22), a binary64 word. -/
  cfgRate : Word
  /-- `CFG_BAUD` (rule R23), a binary64 word. -/
  cfgBaud : Word
  /-- `CFG_POL` (rule R24). -/
  cfgPol : Bool
  /-- `SPB` (rule R25), a binary64 word. -/
  spb : Word
  /-- `ADV_BIT` (rule R25). -/
  advBit : Index
  /-- `ADV_START` (rule R25). -/
  advStart : Index
  /-- `LOOKAHEAD` (rule R25). -/
  lookahead : Index
  /-- `phase` (rule R26). -/
  phase : Phase
  /-- `bit_index` (rule R27), 0 to 5: "The model's type has no such value" as 6 or 7 (rule R82). -/
  bitIndex : Fin 6
  /-- `accumulator` (rule R28). -/
  accumulator : Code
  /-- `active_table` (rule R29). -/
  activeTable : Table
  /-- `cursor` (rule R30). -/
  cursor : Index
  /-- `out_count` (rule R31). -/
  outCount : Index
  /-- `N` (rule R32). -/
  n : Index
  /-- `MAX_OUT` (rule R32). -/
  maxOut : Index
  /-- `busy` (rule R33). -/
  busy : Bool
  /-- The sample window (rule R50). -/
  win : Window
  /-- The output buffer (rule R52). -/
  out : Memory
  /-- The port RST (rule R87): the host asserts reset. -/
  rst : Bool
  /-- The ports CMD_VALID and CMD_W0 to CMD_W2 (rule R87): the command the host offers. -/
  cmd : Option Command
  /-- The ports RSP_VALID and RSP_R0 to RSP_R2 (rule R87): the response of the last command. -/
  rsp : Option Response
  deriving DecidableEq, Repr

/-- Why the machine stops with a fault: never. "The core has no fault outcome: no rule of this spec makes the hardware
trap" (60_exceptions.md rule R214), so the type has no constructor and no answer is a fault, in any state. -/
inductive Fault where
  deriving DecidableEq, Repr

/-- Why an instruction has no meaning in a state: the spec's `refuse`, "the outcome for a state or configuration the spec
does not admit" (00_scope.md rule R10). -/
inductive Refusal where
  /-- The instruction has no meaning in this model yet. Raised by `exec`'s arms only; safe. No arm raises it. -/
  | notModelled (mnemonic : String)
  /-- CONFIGURE with a configuration that is not admitted: the spec's own `refuse` (40_sampler.md rule R109,
  43_host_commands.md rule R171). Raised by CONFIGURE. Also raised by REQIN in a state whose held configuration makes
  its quotient no finite number, which no run from reset reaches. Safe. -/
  | configNotAdmitted
  /-- A step kind asked for outside a DECODE, or where the step guard fails (40_sampler.md rule R108: "runs a step only
  when"). Raised by the seven step kinds, never by `step`. Safe. -/
  | stepNotAllowed
  /-- A step kind asked for where its precondition on phase, bit_index or level does not hold
  (41_frame_decoder.md rules R121 to R127), so that the step selector names another kind. Raised by the seven step
  kinds, never by `step`. Safe. -/
  | stepNotSelected
  /-- A command while busy = 1, which "has no move" (20_memory.md rule R64). Raised by the four commands, never by
  `step`. Safe. -/
  | commandWhileBusy
  /-- A read of WIN at an index that is not below N (20_memory.md rule R51's precondition): a state the spec does not
  admit. Raised by the step kinds that read a sample, and by `step` where the selector's sample is outside the window; no
  step raises it from a state that keeps `State.Inv` (Safety.lean). Safe: the element does not exist. -/
  | windowIndex
  /-- A write of OUT at an index that is not below MAX_OUT (rule R53's precondition): a state the spec does not admit.
  Raised by the mapper operations, never by `step`, whose guard leaves room. Safe: the element does not exist. -/
  | outputIndex
  /-- A step selector with PH = 0b11, which is refused (30_encoding.md rule R82). Raised by `step`; it cannot arise,
  because `Phase` has no such value. Safe. -/
  | reservedSelector
  deriving DecidableEq, Repr

/-- What a meaning or a step answers. -/
abbrev Result := Host.Outcome State Fault Refusal

/-- The state right after reset (10_state.md rule R41, 70_reset_and_hazards.md rule R221). The fields that rule R41 leaves
unspecified (the configuration group but `configured`) or gives no value (the transaction group but `busy`) are 0:
DESIGN CHOICE (log entry 2). The memories list nothing, and no port carries anything. -/
def State.reset : State where
  configured := false
  cfgRate := 0
  cfgBaud := 0
  cfgPol := false
  spb := 0
  advBit := 0
  advStart := 0
  lookahead := 0
  phase := .awaitingStart
  bitIndex := 0
  accumulator := 0
  activeTable := .letters
  cursor := 0
  outCount := 0
  n := 0
  maxOut := 0
  busy := false
  win := []
  out := []
  rst := false
  cmd := none
  rsp := none

end Sys2Proof.Machine
end

