-- ==== Sys2Proof/Machine/Float64.lean ====
section
/-! DEFINITION. `fl64` (00_scope.md rule R9): the IEEE 754 binary64 operations the rules use, on bit patterns, rounded to
nearest with ties to even, computed exactly on naturals and narrowed once at the end. -/

namespace Sys2Proof.Machine

/-- Bit 63, `S` of 30_encoding.md rule R70. -/
def f64Sign (w : Word) : Bool := w.getLsbD 63

/-- Bits 62:52, `E` of rule R70, as a number. -/
def f64Exp (w : Word) : Nat := (w.extractLsb' 52 11).toNat

/-- Bits 51:0, `F` of rule R70, as a number. -/
def f64Frac (w : Word) : Nat := (w.extractLsb' 0 52).toNat

/-- A NaN: exponent all ones and fraction not 0. -/
def f64IsNaN (w : Word) : Bool := f64Exp w == 2047 && f64Frac w != 0

/-- An infinity. -/
def f64IsInf (w : Word) : Bool := f64Exp w == 2047 && f64Frac w == 0

/-- A zero, a subnormal or a normal number. -/
def f64IsFinite (w : Word) : Bool := f64Exp w != 2047

/-- +0.0 or −0.0. -/
def f64IsZero (w : Word) : Bool := f64Exp w == 0 && f64Frac w == 0

/-- The number of units in 1: every finite binary64 number is a whole number of units of 2^−1074. Irreducible, so that no
proof evaluates it by accident; the kernel still computes with it. -/
@[irreducible] def f64One : Nat := 2 ^ 1074

/-- The magnitude of a finite number, in units of 2^−1074. -/
def f64Mag (w : Word) : Nat :=
  if f64Exp w = 0 then f64Frac w else (2 ^ 52 + f64Frac w) * 2 ^ (f64Exp w - 1)

/-- The whole number nearest to `num / den`, a tie going to the even one. -/
def roundHalfEven (num den : Nat) : Nat :=
  let q := num / den
  let r := num % den
  if 2 * r > den ∨ (2 * r = den ∧ q % 2 = 1) then q + 1 else q

/-- The exponent E = 0x7FF with fraction 0: the bits of +∞ as a number. -/
def f64InfBits : Nat := 2047 * 2 ^ 52

/-- The bits (sign 0) of the binary64 number nearest to `num / den` units of 2^−1074. With `k` the number of bits that
do not fit in the 53 of a significand, the significand is `num / (den * 2^k)` rounded to a whole number `m`, and its bits
are `k * 2^52 + m`: for `k = 0` and `m < 2^52` that is the subnormal `m`, and a carry out of the significand moves into
the exponent by itself. A value that rounds to 2^1024 or more gives the bits of +∞. -/
def roundRatio (num den : Nat) : Nat :=
  let k := Nat.log2 (num / den) - 52
  let m := roundHalfEven num (den * 2 ^ k)
  min (k * 2 ^ 52 + m) f64InfBits

/-- A sign and the bits of a magnitude as one word. -/
def f64Pack (sign : Bool) (bits : Nat) : Word :=
  BitVec.ofBool sign ++ BitVec.ofNat 63 bits

/-- The result of an invalid operation: a quiet NaN. No rule observes which one (log entry 9). -/
def f64NaN : Word := 0x7FF8000000000000

/-- `fl64(a / b)`. -/
def fl64Div (a b : Word) : Word :=
  let sign := f64Sign a != f64Sign b
  if f64IsNaN a || f64IsNaN b then f64NaN
  else if f64IsInf a then
    if f64IsInf b then f64NaN else f64Pack sign f64InfBits
  else if f64IsInf b then f64Pack sign 0
  else if f64IsZero b then
    if f64IsZero a then f64NaN else f64Pack sign f64InfBits
  else f64Pack sign (roundRatio (f64Mag a * f64One) (f64Mag b))

/-- `fl64(a × b)`. -/
def fl64Mul (a b : Word) : Word :=
  let sign := f64Sign a != f64Sign b
  if f64IsNaN a || f64IsNaN b then f64NaN
  else if f64IsInf a || f64IsInf b then
    if f64IsZero a || f64IsZero b then f64NaN else f64Pack sign f64InfBits
  else f64Pack sign (roundRatio (f64Mag a * f64Mag b) f64One)

/-- `to64(d)` of 43_host_commands.md rule R173: an integer as a binary64 number, exact for |d| < 2^53. -/
def f64OfInt (d : Int) : Word :=
  f64Pack (decide (d < 0)) (roundRatio (d.natAbs * f64One) 1)

/-- The ordered comparison `x <= 0` (rule R171): true for ±0, a negative number and −∞; false for a NaN. -/
def f64LeZero (w : Word) : Bool :=
  !f64IsNaN w && (f64Sign w || f64IsZero w)

/-- The ordered comparison `x > 0`, bit by bit as 40_sampler.md rule R101 writes `pos(w)`. -/
def f64Pos (w : Word) : Bool :=
  w.getLsbD 63 == false && w.extractLsb' 0 63 != 0
    && !(w.extractLsb' 52 11 == 0x7FF#11 && w.extractLsb' 0 52 != 0)

/-- `floor` of a finite number that is not negative (00_scope.md rule R9). -/
def f64Floor (w : Word) : Nat := f64Mag w / f64One

/-- `ceil` of a finite number that is not negative (00_scope.md rule R9). -/
def f64Ceil (w : Word) : Nat := (f64Mag w + (f64One - 1)) / f64One

/-- `trunc` of a finite number (00_scope.md rule R9): toward zero. -/
def f64Trunc (w : Word) : Int :=
  if f64Sign w then -(f64Floor w : Int) else (f64Floor w : Int)

end Sys2Proof.Machine
end

