-- ==== Sys2Proof/Machine/Ops.lean ====
section
/-! DEFINITION. The named operations over the two memories and the registers: the window read and the output write, the
response of a command and the error response (the core's only exception, 60_exceptions.md rule R207), the start and the
end of a DECODE, construction, and the reset event. -/

namespace Sys2Proof.Machine

/-! ### Indexed cells, strictly rising -/

/-- The indices rise strictly. -/
def cellsRising {α : Type} : List (Nat × α) → Bool
  | [] => true
  | [_] => true
  | a :: b :: rest => decide (a.1 < b.1) && cellsRising (b :: rest)

/-- What is listed at an index. -/
def cellsRead {α : Type} : List (Nat × α) → Nat → Option α
  | [], _ => none
  | (j, v) :: rest, i => if j = i then some v else cellsRead rest i

/-- List `v` at an index, in place of what was listed there. -/
def cellsWrite {α : Type} : List (Nat × α) → Nat → α → List (Nat × α)
  | [], i, v => [(i, v)]
  | (j, u) :: rest, i, v =>
    if i < j then (i, v) :: (j, u) :: rest
    else if i = j then (i, v) :: rest
    else (j, u) :: cellsWrite rest i v

/-- List nothing at an index. -/
def cellsErase {α : Type} : List (Nat × α) → Nat → List (Nat × α)
  | [], _ => []
  | (j, u) :: rest, i => if j = i then rest else (j, u) :: cellsErase rest i

/-! ### The output buffer OUT (20_memory.md rules R52, R53) -/

/-- The canonical form of the output buffer. An unlisted index holds no byte, so no entry equals what it holds. -/
def Memory.wf (m : Memory) : Bool := cellsRising m

/-- The byte at an output index, if one has been written. -/
def Memory.read (m : Memory) (i : Nat) : Option Byte := cellsRead m i

/-- Write one byte. -/
def Memory.write (m : Memory) (i : Nat) (b : Byte) : Memory := cellsWrite m i b

/-! ### The sample window WIN (20_memory.md rules R50, R51) -/

/-- The canonical form of the window: rising indices, and no entry equal to what an unlisted index holds. -/
def Window.wf (m : Window) : Bool := cellsRising m && m.all fun c => c.2 != Window.unlisted

/-- The sample word at a window index. -/
def Window.read (m : Window) (i : Nat) : Word := (cellsRead m i).getD Window.unlisted

/-- Write one element; writing what an unlisted index holds removes the entry. Only the host writes the window. -/
def Window.write (m : Window) (i : Nat) (w : Word) : Window :=
  if w = Window.unlisted then cellsErase m i else cellsWrite m i w

/-- `MemRead(WIN:i, 8)` (rule R51); its precondition is `i < N`. -/
def memRead (s : State) (i : Nat) : Option Word :=
  if i < s.n.toNat then some (Window.read s.win i) else none

/-- `MemWrite(OUT:i, 1, b)` (rule R53); its precondition is `i < MAX_OUT`. -/
def memWrite (s : State) (i : Nat) (b : Byte) : Option State :=
  if i < s.maxOut.toNat then some { s with out := Memory.write s.out i b } else none

/-- `MemWrite(OUT:out_count, 1, b)` followed by `out_count <- out_count + 1` (rule R53). -/
def emit (b : Byte) (s : State) : Result :=
  match memWrite s s.outCount.toNat b with
  | some s' => .next { s' with outCount := s'.outCount + 1 }
  | none => .refused .outputIndex

/-! ### Responses (30_encoding.md rule R81, 60_exceptions.md rules R200, R207) -/

/-- The STATUS values (rule R200). -/
def Status.bits : Status → BitVec 2
  | .ok => 0b00#2
  | .invalidConfig => 0b01#2
  | .notConfigured => 0b10#2
  | .reservedCommand => 0b11#2

/-- The response words: STATUS in R0[1:0], R0[63:2] = 0, then the two results (rule R81). -/
def responseWords (st : Status) (r1 r2 : Word) : Response where
  r0 := st.bits.setWidth 64
  r1 := r1
  r2 := r2

/-- `respond(STATUS, r1, r2)` (00_scope.md rule R10): the command ends. It leaves the command port, and its response
stands on the response port. -/
def respond (st : Status) (r1 r2 : Word) (s : State) : State :=
  { s with cmd := none, rsp := some (responseWords st r1 r2) }

/-- `raise E` (rule R200): `respond(E, 0, 0)` with no state change. This is all the exception entry the core has: it
"saves no state, changes no mode or mask, and transfers control nowhere" (rule R207), and there is no return
(rule R208). -/
def raise (e : Status) (s : State) : State := respond e 0 0 s

/-! ### The parts of the commands -/

/-- A DECODE is accepted (43_host_commands.md rule R172): it holds busy, latches N and MAX_OUT, and the cursor and the
count start at 0. The command leaves the port; no response is present until the DECODE gives its own. -/
def startDecode (n maxOut : Index) (s : State) : State :=
  { s with
    busy := true
    cursor := 0
    outCount := 0
    n := n
    maxOut := maxOut
    cmd := none
    rsp := none }

/-- The DECODE loop has ended: `busy <- 0` and `respond(OK, cursor, out_count)` (rule R172), both zero-extended
(30_encoding.md rule R81). -/
def endDecode (s : State) : State :=
  respond .ok (s.cursor.setWidth 64) (s.outCount.setWidth 64) { s with busy := false }

/-- The construction state of DecoderState (10_state.md rule R39). -/
def construct (s : State) : State :=
  { s with
    phase := .awaitingStart
    bitIndex := 0
    accumulator := 0
    activeTable := .letters }

/-- The reset event (70_reset_and_hazards.md rule R220): every field of 10_state.md rule R20 takes its reset value; a
DECODE in progress is abandoned without a response; WIN and OUT are not written. The ports are idle after it
(log entry 7). -/
def takeReset (s : State) : State :=
  { State.reset with win := s.win, out := s.out }

end Sys2Proof.Machine
end

