-- ==== Sys2Proof/Machine/Flags.lean ====
section
/-! DEFINITION. The one-bit conditions. The core has no status flags or condition codes (10_state.md rule R36); what it tests
are the level of a sample, whether the five data bits are taken, and the step guard. -/

namespace Sys2Proof.Machine

/-- The level classifier (40_sampler.md rule R100): true is mark, false is space. -/
def State.isMark (s : State) (w : Word) : Bool := f64Pos w == s.cfgPol

/-- `bit_index > 4`: the five data bits are taken (30_encoding.md rule R76, field DN). -/
abbrev State.DataTaken (s : State) : Prop := s.bitIndex.val > 4

/-- `step_allowed` (40_sampler.md rule R108): `(out_count < MAX_OUT) and (N − cursor >= LOOKAHEAD)`, the second over the
integers, written as a sum. -/
abbrev State.StepAllowed (s : State) : Prop :=
  s.outCount.toNat < s.maxOut.toNat ∧ s.cursor.toNat + s.lookahead.toNat ≤ s.n.toNat

/-- A DECODE is in progress and its loop would run a step: what every step kind needs before its own precondition. -/
abbrev State.Running (s : State) : Prop := s.busy = true ∧ s.StepAllowed

end Sys2Proof.Machine
end

