-- ==== Sys2Proof/Machine/Operands.lean ====
section
/-! DEFINITION. The operand forms (30_encoding.md rule R83) and the step selector (rule R76).

A step kind takes no operand from a command: it reads the sample at the cursor and the registers. A command's operands are
assembled by the decoder. -/

namespace Sys2Proof.Machine

/-- The window element at `cursor`, the only one a step reads (41_frame_decoder.md rule R120). -/
def State.sample (s : State) : Option Word := memRead s s.cursor.toNat

/-- The encoding of `phase` (30_encoding.md rule R73). -/
def Phase.bits : Phase → BitVec 2
  | .awaitingStart => 0b00#2
  | .framing => 0b01#2
  | .awaitingStop => 0b10#2

/-- The encoding of `active_table` (rule R74). -/
def Table.bit : Table → BitVec 1
  | .letters => 0#1
  | .figures => 1#1

/-- The step selector SEL = {PH, DN, LV} (rule R76). LV is not formed and WIN is not read when PH = Framing and DN = 1.
A field that is not formed is 0. `none`: the read is outside the window. -/
def State.selector (s : State) : Option (BitVec 4) :=
  if s.phase = .framing ∧ s.DataTaken then
    some (s.phase.bits ++ 1#1 ++ 0#1)
  else
    match s.sample with
    | some w => some (s.phase.bits ++ 0#1 ++ BitVec.ofBool (s.isMark w))
    | none => none

/-- The frame of a step kind that reads the sample at the cursor. The step runs only in a DECODE whose guard holds
(40_sampler.md rule R108) and where its precondition holds: the phase is `ph` and the sample's level is `mark`
(41_frame_decoder.md rules R121 to R124, R126, R127). -/
def sampleStep (ph : Phase) (mark : Bool) (s : State) (effect : Result) : Result :=
  if s.Running then
    if s.phase = ph then
      match s.sample with
      | none => .refused .windowIndex
      | some w => if s.isMark w = mark then effect else .refused .stepNotSelected
    else .refused .stepNotSelected
  else .refused .stepNotAllowed

/-- The frame of a command: it is accepted only while busy = 0 (30_encoding.md rule R80). -/
def whileIdle (s : State) (effect : Result) : Result :=
  if s.busy then .refused .commandWhileBusy else effect

end Sys2Proof.Machine
end

