-- ==== Sys2Proof/Machine/Tables.lean ====
section
/-! DEFINITION. The two alphabet tables (42_alphabet_mapper.md rules R150, R154). They are fixed contents, not state
(10_state.md rule R37), and a parameter of the model with a default (00_scope.md rule R7): this file is that parameter.
DESIGN CHOICE: the default of rule R154 (log entry 5). Entries 0, 27 and 31 are 0x00 in every admitted table. -/

namespace Sys2Proof.Machine

/-- LETTERS_TABLE, entries 0 to 31 (rule R154). -/
def lettersTable : List Byte :=
  [0x00, 0x45, 0x0A, 0x41, 0x20, 0x53, 0x49, 0x55] ++ [0x0D, 0x44, 0x52, 0x4A, 0x4E, 0x46, 0x43, 0x4B] ++
  [0x54, 0x5A, 0x4C, 0x57, 0x48, 0x59, 0x50, 0x51] ++ [0x4F, 0x42, 0x47, 0x00, 0x4D, 0x58, 0x56, 0x00]

/-- FIGURES_TABLE, entries 0 to 31 (rule R154). -/
def figuresTable : List Byte :=
  [0x00, 0x33, 0x0A, 0x2D, 0x20, 0x07, 0x38, 0x37] ++ [0x0D, 0x24, 0x34, 0x27, 0x2C, 0x21, 0x3A, 0x28] ++
  [0x35, 0x22, 0x29, 0x32, 0x23, 0x36, 0x30, 0x31] ++ [0x39, 0x3F, 0x26, 0x00, 0x2E, 0x2F, 0x3B, 0x00]

/-- The entry of a table at a code (rule R150). Both lists have an entry for each of the 32 codes. -/
def tableByte (t : Table) (code : Code) : Byte :=
  match t with
  | .letters => lettersTable.getD code.toNat 0
  | .figures => figuresTable.getD code.toNat 0

end Sys2Proof.Machine
end

