-- ==== Sys2Proof/Machine/Sampler.lean ====
section
/-! DEFINITION. The derived timing constants and the admitted configurations (40_sampler.md rules R102 to R105, R109), and
REQIN's arithmetic (43_host_commands.md rule R173). -/

namespace Sys2Proof.Machine

/-- `SPB := fl64(CFG_RATE / CFG_BAUD)` (rule R102). -/
def spbOf (rate baud : Word) : Word := fl64Div rate baud

/-- `ADV_BIT := floor(SPB)` (rule R103). -/
def advBitOf (spb : Word) : Nat := f64Floor spb

/-- `fl64(1.5 × SPB)` (rule R104): the product is formed first and truncated once. -/
def startProduct (spb : Word) : Word := fl64Mul 0x3FF8000000000000 spb

/-- `ADV_START := floor(fl64(1.5 × SPB))` (rule R104). -/
def advStartOf (spb : Word) : Nat := f64Floor (startProduct spb)

/-- `fl64(8 × SPB)` (rule R105). -/
def lookaheadProduct (spb : Word) : Word := fl64Mul 0x4020000000000000 spb

/-- `LOOKAHEAD := ceil(fl64(8 × SPB))` (rule R105). -/
def lookaheadOf (spb : Word) : Nat := f64Ceil (lookaheadProduct spb)

/-- Rule R109 (a) to (c), asked of a configuration whose rates are not `<= 0`: both rates finite; SPB finite and > 0;
LOOKAHEAD at most 2^W_IDX − 1 (an infinite product has no ceiling). -/
def admitted (rate baud : Word) : Bool :=
  f64IsFinite rate && f64IsFinite baud
    && f64IsFinite (spbOf rate baud) && f64Pos (spbOf rate baud)
    && f64IsFinite (lookaheadProduct (spbOf rate baud))
    && decide (lookaheadOf (spbOf rate baud) ≤ 2 ^ Config.wIdx - 1)

/-- `rate <= 0 or baud <= 0` (rule R171, 60_exceptions.md rule R201), the binary64 comparisons. -/
def invalidRates (rate baud : Word) : Bool := f64LeZero rate || f64LeZero baud

/-- The configuration group after a successful CONFIGURE (rule R171; 10_state.md rules R21 to R25). -/
def setConfig (pol : Bool) (rate baud : Word) (s : State) : State :=
  { s with
    configured := true
    cfgRate := rate
    cfgBaud := baud
    cfgPol := pol
    spb := spbOf rate baud
    advBit := BitVec.ofNat Config.wIdx (advBitOf (spbOf rate baud))
    advStart := BitVec.ofNat Config.wIdx (advStartOf (spbOf rate baud))
    lookahead := BitVec.ofNat Config.wIdx (lookaheadOf (spbOf rate baud)) }

/-- `C742` of rule R173, the binary64 number nearest 7.42. -/
def f64C742 : Word := 0x401DAE147AE147AE

/-- The quotient `r` of rule R173: `fl64(to64(d) / fl64(fl64(CFG_BAUD / CFG_RATE) / C742))`. -/
def reqinQuotient (rate baud : Word) (d : HostInt) : Word :=
  fl64Div (f64OfInt d.toInt) (fl64Div (fl64Div baud rate) f64C742)

/-- `min(max(v, −2^(W_INT−1)), 2^(W_INT−1) − 1)` (rule R173). -/
def saturate (v : Int) : Int :=
  min (max v (-(2 ^ (Config.wInt - 1)))) (2 ^ (Config.wInt - 1) - 1)

/-- REQIN's result (rule R173): the quotient truncated toward zero and saturated. `none` where the quotient is infinite or
a NaN, which has no truncation; the held configuration is then not an admitted one. -/
def reqinResult (rate baud : Word) (d : HostInt) : Option HostInt :=
  let r := reqinQuotient rate baud d
  if f64IsFinite r then some (BitVec.ofInt Config.wInt (saturate (f64Trunc r))) else none

end Sys2Proof.Machine
end

