-- ==== Sys2Proof/Machine/Mapper.lean ====
section
/-! DEFINITION. The three operations of the Alphabet Mapper (42_alphabet_mapper.md rules R151 to R153). -/

namespace Sys2Proof.Machine

/-- MAP_FIGS (rule R151): `active_table <- Figures`, then FIGURES_TABLE[27] is appended. -/
def execMapFigs (s : State) : Result :=
  emit (tableByte .figures 27#5) { s with activeTable := .figures }

/-- MAP_LTRS (rule R152): `active_table <- Letters`, then LETTERS_TABLE[31] is appended. -/
def execMapLtrs (s : State) : Result :=
  emit (tableByte .letters 31#5) { s with activeTable := .letters }

/-- MAP_CHAR (rule R153): the active table's entry at the code is appended. -/
def execMapChar (code : Code) (s : State) : Result :=
  emit (tableByte s.activeTable code) s

/-- `map(accumulator)` of 41_frame_decoder.md rule R126: the mapper selector of 30_encoding.md rule R78 picks the operation,
the first matching row winning. -/
def mapCode (code : Code) (s : State) : Result :=
  if code = 27#5 then execMapFigs s
  else if code = 31#5 then execMapLtrs s
  else execMapChar code s

end Sys2Proof.Machine
end

