-- ==== Sys2Proof/Machine/FrameDecoder.lean ====
section
/-! DEFINITION. The seven step kinds of the Frame Decoder (41_frame_decoder.md rules R121 to R127). Each is one row of the
source's §4.2 table, taken atomically (00_scope.md rule R6). -/

namespace Sys2Proof.Machine

/-- START_HIT (rule R121). -/
def execStartHit (s : State) : Result :=
  sampleStep .awaitingStart false s <|
    .next { s with
      cursor := s.cursor + s.advStart
      bitIndex := 0
      accumulator := 0
      phase := .framing }

/-- START_MISS (rule R122). -/
def execStartMiss (s : State) : Result :=
  sampleStep .awaitingStart true s <|
    .next { s with cursor := s.cursor + 1 }

/-- The end of a data step: `bit_index <- bit_index + 1` and `cursor <- cursor + ADV_BIT` (rules R123, R124). The
increment runs only where `bit_index <= 4`, so it does not wrap. -/
def nextBit (s : State) : State :=
  { s with
    bitIndex := s.bitIndex + 1
    cursor := s.cursor + s.advBit }

/-- DATA_SPACE (rule R124). -/
def execDataSpace (s : State) : Result :=
  sampleStep .framing false s <|
    if s.DataTaken then .refused .stepNotSelected else .next (nextBit s)

/-- DATA_MARK (rule R123): bit `bit_index` of the accumulator is set; its other bits are unchanged. -/
def execDataMark (s : State) : Result :=
  sampleStep .framing true s <|
    if s.DataTaken then .refused .stepNotSelected
    else .next (nextBit { s with accumulator := s.accumulator ||| (1#5 <<< s.bitIndex.val) })

/-- FRAME_COMPLETE (rule R125): no sample is read and the cursor does not move, but the step guard applies. -/
def execFrameComplete (s : State) : Result :=
  if s.Running then
    if s.phase = .framing ∧ s.DataTaken then .next { s with phase := .awaitingStop }
    else .refused .stepNotSelected
  else .refused .stepNotAllowed

/-- The end of both stop steps: `accumulator <- 0` and `phase <- AwaitingStart`, the cursor unchanged
(rules R126, R127). -/
def leaveStop (s : State) : State :=
  { s with
    accumulator := 0
    phase := .awaitingStart }

/-- STOP_FAIL (rule R127): the frame is dropped. -/
def execStopFail (s : State) : Result :=
  sampleStep .awaitingStop false s (.next (leaveStop s))

/-- STOP_MATCH (rule R126): the mapper runs on the accumulator, then the accumulator is cleared. -/
def execStopMatch (s : State) : Result :=
  sampleStep .awaitingStop true s <|
    match mapCode s.accumulator s with
    | .next s' => .next (leaveStop s')
    | .fault f => nomatch f
    | .refused r => .refused r

end Sys2Proof.Machine
end

