-- ==== Sys2Proof/Machine/HostCommands.lean ====
section
/-! DEFINITION. The four host commands (43_host_commands.md rules R171 to R174). The decoder has found reserved words first,
so the order of the checks is that of 60_exceptions.md rule R206. -/

namespace Sys2Proof.Machine

/-- CONFIGURE (rule R171). -/
def execConfigure (pol : Bool) (rate baud : Word) (s : State) : Result :=
  whileIdle s <|
    if invalidRates rate baud then .next (raise .invalidConfig s)
    else if admitted rate baud then .next (respond .ok 0 0 (construct (setConfig pol rate baud s)))
    else .refused .configNotAdmitted

/-- DECODE (rule R172): its acceptance. The loop that follows is `fetch` and `step`, and its end is `endDecode`. -/
def execDecode (n maxOut : Index) (s : State) : Result :=
  whileIdle s <|
    if s.configured then .next (startDecode n maxOut s)
    else .next (raise .notConfigured s)

/-- REQIN (rule R173): the result is sign-extended from W_INT bits. -/
def execReqin (d : HostInt) (s : State) : Result :=
  whileIdle s <|
    if s.configured then
      match reqinResult s.cfgRate s.cfgBaud d with
      | some v => .next (respond .ok (v.signExtend 64) 0 s)
      | none => .refused .configNotAdmitted
    else .next (raise .notConfigured s)

/-- RESERVED (rule R174). -/
def execReserved (s : State) : Result :=
  whileIdle s (.next (raise .reservedCommand s))

end Sys2Proof.Machine
end

