-- ==== Sys2Proof/Machine/Fetch.lean ====
section
/-! DEFINITION. What the core does next. It has no program counter and fetches no instructions (10_state.md rule R35): the
reset line, `busy`, the step guard, the step selector and the command port pick the next transition. -/

namespace Sys2Proof.Machine

/-- What the next transition is. -/
inductive Fetch where
  /-- The reset event (70_reset_and_hazards.md rule R220). -/
  | resetEvent
  /-- An instruction: a step kind inside a DECODE, or an accepted command. -/
  | run (i : Instr)
  /-- The guard of the DECODE loop fails: the DECODE ends (43_host_commands.md rule R172). -/
  | loopEnd
  /-- No command is offered: the core waits (60_exceptions.md rule R213). -/
  | idle
  /-- The selector's sample lies outside the window. -/
  | outsideWindow
  /-- The selector names no step. -/
  | reservedSelector
  deriving DecidableEq, Repr

/-- Reset first; inside a DECODE the loop of rule R172, its step picked by the selector (30_encoding.md rules R76, R77;
41_frame_decoder.md rule R120); otherwise the command on the port (rule R80). -/
def fetch (s : State) : Fetch :=
  if s.rst then .resetEvent
  else if s.busy then
    if s.StepAllowed then
      match s.selector with
      | none => .outsideWindow
      | some sel =>
        match decodeSelector sel with
        | some i => .run i
        | none => .reservedSelector
    else .loopEnd
  else
    match s.cmd with
    | some c => .run (decodeCommand c.w0 c.w1 c.w2)
    | none => .idle

/-! ### Placing an instruction where `fetch` finds it -/

/-- The configuration K10 of 41_frame_decoder.md: rate 10.0, baud 1.0, pol 1, so SPB = 10.0, ADV_BIT = 10,
ADV_START = 15, LOOKAHEAD = 80. -/
def configK10 (s : State) : State :=
  { s with
    configured := true
    cfgRate := 0x4024000000000000
    cfgBaud := 0x3FF0000000000000
    cfgPol := true
    spb := 0x4024000000000000
    advBit := 10
    advStart := 15
    lookahead := 80 }

/-- A DECODE under K10 whose next step has the given phase, `bit_index`, accumulator and level: a window of LOOKAHEAD
samples, the first of them +1.0 for mark or −1.0 for space, and room for one byte. -/
def placeStep (ph : Phase) (bits : Fin 6) (acc : Code) (mark : Bool) (s : State) : State :=
  { configK10 s with
    phase := ph
    bitIndex := bits
    accumulator := acc
    busy := true
    cursor := 0
    outCount := 0
    n := 80
    maxOut := 1
    win := Window.write s.win 0 (if mark then 0x3FF0000000000000 else 0xBFF0000000000000)
    rst := false
    cmd := none }

/-- A command on the port of an idle core. -/
def placeCommand (w0 w1 w2 : Word) (s : State) : State :=
  { s with busy := false, rst := false, cmd := some (Command.mk w0 w1 w2) }

/-- Place an instruction so that the next transition runs it (log entry 15). A mapper operation is placed as the
STOP_MATCH that runs it, because nothing else invokes the mapper (42_alphabet_mapper.md). -/
def placeInstr (i : Instr) (s : State) : State :=
  match i with
  | .startHit => placeStep .awaitingStart 0 0 false s
  | .startMiss => placeStep .awaitingStart 0 0 true s
  | .dataSpace => placeStep .framing 0 0 false s
  | .dataMark => placeStep .framing 0 0 true s
  | .frameComplete => placeStep .framing 5 0 true s
  | .stopFail => placeStep .awaitingStop 5 0 false s
  | .stopMatch => placeStep .awaitingStop 5 0 true s
  | .mapFigs => placeStep .awaitingStop 5 27 true s
  | .mapLtrs => placeStep .awaitingStop 5 31 true s
  | .mapChar code => placeStep .awaitingStop 5 code true s
  | .configure _ _ _ =>
    match encode i with
    | .command w0 w1 w2 => placeCommand w0 w1 w2 s
    | _ => s
  | .decode _ _ =>
    match encode i with
    | .command w0 w1 w2 => placeCommand w0 w1 w2 s
    | _ => s
  | .reqin _ =>
    match encode i with
    | .command w0 w1 w2 => placeCommand w0 w1 w2 s
    | _ => s
  | .reserved w0 w1 w2 => placeCommand w0 w1 w2 s

end Sys2Proof.Machine
end

