-- ==== Sys2Proof/Machine/Dispatch.lean ====
section
/-! DEFINITION. The meaning of every instruction: one arm per constructor of `Instr`. -/

namespace Sys2Proof.Machine

def exec (i : Instr) (s : State) : Host.Outcome State Fault Refusal :=
  match i with
  | .startHit => Sys2Proof.Machine.execStartHit s
  | .startMiss => Sys2Proof.Machine.execStartMiss s
  | .dataSpace => Sys2Proof.Machine.execDataSpace s
  | .dataMark => Sys2Proof.Machine.execDataMark s
  | .frameComplete => Sys2Proof.Machine.execFrameComplete s
  | .stopFail => Sys2Proof.Machine.execStopFail s
  | .stopMatch => Sys2Proof.Machine.execStopMatch s
  | .mapFigs => Sys2Proof.Machine.execMapFigs s
  | .mapLtrs => Sys2Proof.Machine.execMapLtrs s
  | .mapChar code => Sys2Proof.Machine.execMapChar code s
  | .configure pol rate baud => Sys2Proof.Machine.execConfigure pol rate baud s
  | .decode n maxOut => Sys2Proof.Machine.execDecode n maxOut s
  | .reqin d => Sys2Proof.Machine.execReqin d s
  | .reserved _ _ _ => Sys2Proof.Machine.execReserved s

end Sys2Proof.Machine
end

