-- ==== Sys2Proof/Machine/Step.lean ====
section
/-! DEFINITION. One step of the core. -/

namespace Sys2Proof.Machine

/-- One transition: the reset event, one instruction, the end of a DECODE, or waiting for a command, which changes
nothing. -/
def step (s : State) : Host.Outcome State Fault Refusal :=
  match fetch s with
  | .resetEvent => .next (takeReset s)
  | .run i => exec i s
  | .loopEnd => .next (endDecode s)
  | .idle => .next s
  | .outsideWindow => .refused .windowIndex
  | .reservedSelector => .refused .reservedSelector

/-- `s` with the instruction of a table word placed where `fetch` finds it next (log entry 15). -/
def State.withFetchWord (s : State) (nbits w : Nat) : State :=
  match decodeTableWord nbits w with
  | some i => placeInstr i s
  | none => s

end Sys2Proof.Machine
end

