-- ==== Sys2Proof/Machine/HostPort.lean ====
section
/-! DEFINITION. What the host can do to the core between two steps (70_reset_and_hazards.md rule R224; ports of
30_encoding.md rule R87). `step` is the core's transition alone; a host's move lands between steps. `none` is an action
"the host is assumed never to take": it has no move.

DESIGN CHOICE (log entry 26): when RST is asserted on a running DECODE, the host gets WIN[0..N−1] and OUT[0..MAX_OUT−1] back
at the reset event, the next step, and not at the assertion. Rule R224's RESET row lets the host touch "everything" and its
DECODE row nothing there "until the response", which such a DECODE never gives. So the four moves on the two memories below
test busy alone, whatever RST is. -/

namespace Sys2Proof.Machine

/-- CMD_READY = !busy (rule R87). -/
def State.cmdReady (s : State) : Bool := !s.busy

/-- The host asserts RST. It may do so at any time, during a DECODE too (rule R220). -/
def hostReset (s : State) : State := { s with rst := true }

/-- The host offers a command. No move while busy = 1 (rule R224 (a)), nor while an earlier command still waits. -/
def hostOffer (c : Command) (s : State) : Option State :=
  if s.busy || s.cmd.isSome then none else some { s with cmd := some c }

/-- The host writes one window element. No move on WIN[0..N−1] during a DECODE (rule R224 (b)); for one under
an asserted RST that is log entry 26. -/
def hostWriteWindow (i : Nat) (w : Word) (s : State) : Option State :=
  if s.busy = true ∧ i < s.n.toNat then none else some { s with win := Window.write s.win i w }

/-- The samples `ws` at the window's indices from `i` on. -/
def windowFrom (m : Window) (i : Nat) : List Word → Window
  | [] => m
  | w :: ws => windowFrom (Window.write m i w) (i + 1) ws

/-- The host presents a whole window from element 0 (rule R223). No move during a DECODE; for one under an
asserted RST that is log entry 26. -/
def hostPresentWindow (ws : List Word) (s : State) : Option State :=
  if s.busy then none else some { s with win := windowFrom s.win 0 ws }

/-- The host writes one element of its output buffer. No move on OUT[0..MAX_OUT−1] during a DECODE (rule R224 (c)); for one
under an asserted RST that is log entry 26. -/
def hostWriteOut (i : Nat) (b : Byte) (s : State) : Option State :=
  if s.busy = true ∧ i < s.maxOut.toNat then none else some { s with out := Memory.write s.out i b }

/-- The host reads one element of its output buffer. No move on OUT[0..MAX_OUT−1] during a DECODE (rule R224 (c)); for one
under an asserted RST that is log entry 26. -/
def hostReadOut (i : Nat) (s : State) : Option (Option Byte) :=
  if s.busy = true ∧ i < s.maxOut.toNat then none else some (Memory.read s.out i)

/-- The host takes the response, which then no longer stands on the port. -/
def hostTakeResponse (s : State) : Option (Response × State) :=
  match s.rsp with
  | some r => some (r, { s with rsp := none })
  | none => none

/-- The output sequence OUT[0..COUNT−1] of a DECODE's response (30_encoding.md rule R81). -/
def outputSequence (s : State) (count : Nat) : List (Option Byte) :=
  (List.range count).map (Memory.read s.out)

end Sys2Proof.Machine
end

