-- ==== Sys2Proof/Safety.lean ====
section
/-! DEFINITION. What holds of every state a run reaches, and what counts as a safe answer. Each part is decidable, so that a
concrete state can be checked. -/

namespace Sys2Proof.Machine

/-- The configuration group once `configured` = 1 (10_state.md rules R22 to R25): rates that are not `<= 0`, admitted, and
the derived constants computed from them. -/
abbrev State.ConfigInv (s : State) : Prop :=
  s.configured = true →
    invalidRates s.cfgRate s.cfgBaud = false ∧ admitted s.cfgRate s.cfgBaud = true ∧
    s.spb = spbOf s.cfgRate s.cfgBaud ∧
    s.advBit.toNat = advBitOf s.spb ∧ s.advStart.toNat = advStartOf s.spb ∧ s.lookahead.toNat = lookaheadOf s.spb

/-- A DECODE in progress (rules R30, R31, R33): the core is configured, cursor ≤ N, out_count ≤ MAX_OUT, and no command
waits on the port (rule R80). -/
abbrev State.DecodeInv (s : State) : Prop :=
  s.busy = true →
    s.configured = true ∧ s.cursor.toNat ≤ s.n.toNat ∧ s.outCount.toNat ≤ s.maxOut.toNat ∧ s.cmd = none

/-- The frame being assembled (41_frame_decoder.md rule R129): between frames the accumulator is 0; within one, no bit is
set that has not been received; at the stop test all five bits are taken. -/
abbrev State.FrameInv (s : State) : Prop :=
  (s.phase = .awaitingStart → s.accumulator = 0#5) ∧
  (s.phase = .framing → s.accumulator >>> s.bitIndex.val = 0#5) ∧
  (s.phase = .awaitingStop → s.bitIndex = 5)

/-- Both memories are in their canonical form. -/
abbrev State.MemoryInv (s : State) : Prop := Memory.wf s.out = true ∧ Window.wf s.win = true

/-- The invariant of the machine. -/
abbrev State.Inv (s : State) : Prop := s.ConfigInv ∧ s.DecodeInv ∧ s.FrameInv ∧ s.MemoryInv

/-- An answer that is no fault (60_exceptions.md rule R214). -/
def NoFault (r : Result) : Prop := ∀ f, r ≠ .fault f

/-- The configuration group is the same in two states. -/
abbrev State.SameConfig (s t : State) : Prop :=
  t.configured = s.configured ∧ t.cfgRate = s.cfgRate ∧ t.cfgBaud = s.cfgBaud ∧ t.cfgPol = s.cfgPol ∧
  t.spb = s.spb ∧ t.advBit = s.advBit ∧ t.advStart = s.advStart ∧ t.lookahead = s.lookahead

/-- The DecoderState group is the same in two states. -/
abbrev State.SameDecoder (s t : State) : Prop :=
  t.phase = s.phase ∧ t.bitIndex = s.bitIndex ∧ t.accumulator = s.accumulator ∧ t.activeTable = s.activeTable

/-- The transaction group is the same in two states. -/
abbrev State.SameTransaction (s t : State) : Prop :=
  t.cursor = s.cursor ∧ t.outCount = s.outCount ∧ t.n = s.n ∧ t.maxOut = s.maxOut ∧ t.busy = s.busy

/-- The ports are the same in two states. -/
abbrev State.SamePorts (s t : State) : Prop := t.rst = s.rst ∧ t.cmd = s.cmd ∧ t.rsp = s.rsp

/-- Every element of the window reads the same in two states. -/
def State.SameWindow (s t : State) : Prop := ∀ i, Window.read t.win i = Window.read s.win i

/-- Every element of the output buffer but the one at index `a` reads the same in two states. -/
def State.SameOutputBut (a : Nat) (s t : State) : Prop := ∀ i, i ≠ a → Memory.read t.out i = Memory.read s.out i

/-- Every element of the output buffer reads the same in two states. -/
def State.SameOutput (s t : State) : Prop := ∀ i, Memory.read t.out i = Memory.read s.out i

/-! ### What a frame decodes to -/

/-- The alphabet in force after the mapper has run on a code: the two shift codes select theirs
(42_alphabet_mapper.md rules R151 to R153). -/
def tableAfter (code : Code) (t : Table) : Table :=
  if code = 27#5 then .figures else if code = 31#5 then .letters else t

/-- The byte the mapper appends for a code: the entry at the code of the alphabet in force after it has run. -/
def mappedByte (code : Code) (t : Table) : Byte := tableByte (tableAfter code t) code

/-- The level of the window element at an index: true is mark. -/
def State.levelAt (s : State) (i : Nat) : Bool := s.isMark (Window.read s.win i)

/-- The index at which data bit `k` of a frame whose START_HIT is at the cursor is read; `k = 5` is the stop test
(40_sampler.md rule R111). -/
def State.frameIndex (s : State) (k : Nat) : Nat := s.cursor.toNat + s.advStart.toNat + k * s.advBit.toNat

/-- The code word of such a frame: bit k is the level at `frameIndex k` (30_encoding.md rule R72). -/
def State.frameCode (s : State) : Code :=
  BitVec.ofBool (s.levelAt (s.frameIndex 4)) ++ BitVec.ofBool (s.levelAt (s.frameIndex 3)) ++
  BitVec.ofBool (s.levelAt (s.frameIndex 2)) ++ BitVec.ofBool (s.levelAt (s.frameIndex 1)) ++
  BitVec.ofBool (s.levelAt (s.frameIndex 0))

/-! ### Two runs over the same stream -/

/-- `t` is `s` with `p` window samples and `q` output bytes left behind: WIN[i] of `t` is WIN[i + p] of `s`, and the bytes
`t` has written are those `s` has written from index `q` on (43_host_commands.md rule R177). -/
structure State.Resumes (p q : Nat) (s t : State) : Prop where
  config : s.SameConfig t
  decoder : s.SameDecoder t
  busy : t.busy = s.busy
  rst : t.rst = s.rst
  cursor : s.cursor.toNat = t.cursor.toNat + p
  length : s.n.toNat = t.n.toNat + p
  count : s.outCount.toNat = t.outCount.toNat + q
  capacity : s.maxOut.toNat = t.maxOut.toNat + q
  window : ∀ i, Window.read t.win i = Window.read s.win (i + p)
  output : ∀ i, i < t.outCount.toNat → Memory.read t.out i = Memory.read s.out (i + q)

end Sys2Proof.Machine
end

