-- ==== Sys2Proof/Certificates/Slice0/Obligations.lean ====
section
/-! DEFINITION. The statements for the provers. Each formalises rules of spec/, named in its docstring. None is about a
program, and none rests on the default characters of the alphabet tables. Where a statement speaks of the command port or
the response port (fields `cmd` and `rsp`), when the command leaves the port and how long a response stands on it are the
model's choice (log entry 8). -/

open Sys2Proof Sys2Proof.Machine

/-! ### Reset -/

/-- 70_reset_and_hazards.md rule R221: what reset leaves. -/
def Obligations.ResetLeavesUnconfiguredIdleCore : Prop :=
  State.reset.configured = false ∧ State.reset.phase = .awaitingStart ∧ State.reset.bitIndex = 0 ∧
  State.reset.accumulator = 0#5 ∧ State.reset.activeTable = .letters ∧ State.reset.busy = false

/-- The state after reset keeps the model's invariant (Safety.lean). -/
def Obligations.ResetStateKeepsInvariant : Prop := State.reset.Inv

/-- Rule R220: whenever RST is asserted, during a DECODE and during a hang too, the next step is the reset event. The
fields take the values rule R41 gives, and WIN and OUT are not written. That no response is present afterwards is the
model's reading of "without a response" (log entry 7). -/
def Obligations.ResetEventAbandonsDecode : Prop :=
  ∀ s : State, s.rst = true →
    ∃ t, step s = .next t ∧
      t.configured = false ∧ t.phase = .awaitingStart ∧ t.bitIndex = 0 ∧ t.accumulator = 0#5 ∧
      t.activeTable = .letters ∧ t.busy = false ∧ t.rsp = none ∧
      s.SameWindow t ∧ s.SameOutput t

/-! ### The step and the decoders -/

/-- 43_host_commands.md rule R172's loop, 30_encoding.md rules R76, R77 and R80: inside a DECODE whose guard holds, step is
exec of the instruction the step selector names; at an idle core, step is exec of the instruction the command words
decode to. The last two clauses are the model's choice (log entry 12, DESIGN CHOICE): that the end of the loop is a step of
its own, which runs `endDecode`, and that the step of an idle core with no command answers the same state, the transaction
group included (60_exceptions.md rule R213 says that the rest is held between commands). -/
def Obligations.StepRunsTheDecodedInstruction : Prop :=
  ∀ s : State, s.rst = false →
    (∀ sel i, s.busy = true → s.StepAllowed → s.selector = some sel → decodeSelector sel = some i → step s = exec i s) ∧
    (∀ c, s.busy = false → s.cmd = some c → step s = exec (decodeCommand c.w0 c.w1 c.w2) s) ∧
    (s.busy = true → ¬ s.StepAllowed → step s = .next (endDecode s)) ∧
    (s.busy = false → s.cmd = none → step s = .next s)

/-- 41_frame_decoder.md rule R120: with a readable sample, step runs the step kind of the phase, `bit_index` and level. -/
def Obligations.StepRunsTheKindOfPhaseAndLevel : Prop :=
  ∀ s : State, s.rst = false → s.Running → s.cursor.toNat < s.n.toNat →
    step s =
      match s.phase with
      | .awaitingStart => if s.levelAt s.cursor.toNat then exec .startMiss s else exec .startHit s
      | .framing =>
        if s.bitIndex.val > 4 then exec .frameComplete s
        else if s.levelAt s.cursor.toNat then exec .dataMark s else exec .dataSpace s
      | .awaitingStop => if s.levelAt s.cursor.toNat then exec .stopMatch s else exec .stopFail s

/-- 30_encoding.md rule R77, each row at both values of a field it marks x; rule R78; and the command words of
95_test_vectors.md (programs P1 and P4). -/
def Obligations.WordsOfTheSpecDecode : Prop :=
  decodeSelector 0b0000#4 = some .startHit ∧ decodeSelector 0b0010#4 = some .startHit ∧
  decodeSelector 0b0001#4 = some .startMiss ∧ decodeSelector 0b0011#4 = some .startMiss ∧
  decodeSelector 0b0101#4 = some .dataMark ∧ decodeSelector 0b0100#4 = some .dataSpace ∧
  decodeSelector 0b0110#4 = some .frameComplete ∧ decodeSelector 0b0111#4 = some .frameComplete ∧
  decodeSelector 0b1001#4 = some .stopMatch ∧ decodeSelector 0b1011#4 = some .stopMatch ∧
  decodeSelector 0b1000#4 = some .stopFail ∧ decodeSelector 0b1010#4 = some .stopFail ∧
  decodeMapper 0b11011#5 = .mapFigs ∧ decodeMapper 0b11111#5 = .mapLtrs ∧ decodeMapper 0b10000#5 = .mapChar 16#5 ∧
  decodeCommand 0x4 0x4024000000000000 0x3FF0000000000000 = .configure true 0x4024000000000000 0x3FF0000000000000 ∧
  decodeCommand 0x1 0xAF 0x10 = .decode 175#32 16#32 ∧
  decodeCommand 0x2 0xFFFFFFFFFFFFFFFF 0x0 = .reqin (BitVec.ofInt 32 (-1)) ∧
  decodeCommand 0x5 0x64 0x4 = .reserved 0x5 0x64 0x4

/-- 30_encoding.md rule R77's last row: a selector with PH = 0b11 names no step, and every other selector names one. -/
def Obligations.OnlyTheReservedPhaseNamesNoStep : Prop :=
  ∀ sel : BitVec 4, decodeSelector sel = none ↔ sel.extractLsb' 2 2 = 0b11#2

/-- Decode and encode agree: every well-formed instruction of every row, at every value of its operands, decodes from its
encoding (30_encoding.md rules R77 to R79, R83). -/
def Obligations.DecodeGivesBackTheEncodedInstruction : Prop :=
  ∀ i : Instr, wellFormed i = true → decodeEncoded (encode i) = .ok i

/-- The other direction for the spaces in which every pattern has one meaning: the three command words and the mapper
code come back from the instruction they decode to, so no bit of a command is dropped (rules R78, R79, R82). -/
def Obligations.EncodeGivesBackTheCommandWords : Prop :=
  (∀ w0 w1 w2 : Word, encode (decodeCommand w0 w1 w2) = .command w0 w1 w2) ∧
  (∀ c : Code, encode (decodeMapper c) = .code c)

/-- What the decoders give is well formed: MAP_CHAR never carries a shift code, and RESERVED carries only words of
rule R82. -/
def Obligations.DecodedInstructionsAreWellFormed : Prop :=
  ∀ (e : Encoding) (i : Instr), decodeEncoded e = .ok i → wellFormed i = true

/-- 60_exceptions.md rule R203: every command word of 30_encoding.md rule R82 gets the ReservedCommand response, with no
other state change, configured or not. -/
def Obligations.ReservedWordsAreAnsweredReservedCommand : Prop :=
  ∀ (s : State) (w0 w1 w2 : Word), s.rst = false → s.busy = false → s.cmd = some (Command.mk w0 w1 w2) →
    reservedWords w0 w1 w2 = true →
    step s = .next { s with cmd := none, rsp := some (Response.mk 0b11 0 0) }

/-! ### The level classifier -/

/-- 40_sampler.md rules R100 and R101, class by class: a NaN, a word with sign 1 and a zero have `pos` = 0, every other
word has `pos` = 1, and a sample is mark exactly when `pos` equals CFG_POL. -/
def Obligations.LevelFollowsSignAndPolarity : Prop :=
  ∀ (s : State) (w : Word),
    s.isMark w =
      if w.extractLsb' 52 11 = 0x7FF#11 ∧ w.extractLsb' 0 52 ≠ 0 then !s.cfgPol
      else if w.getLsbD 63 = true then !s.cfgPol
      else if w = 0 then !s.cfgPol
      else s.cfgPol

/-! ### The step kinds: where each completes, and with what result -/

/-- 41_frame_decoder.md rule R121: its selectors, and its effect. -/
def Obligations.StartHitEntersFraming : Prop :=
  (∀ sel : BitVec 4, decodeSelector sel = some .startHit ↔ sel &&& 0b1101#4 = 0b0000#4) ∧
  ∀ s : State, s.Running → s.phase = .awaitingStart → s.cursor.toNat < s.n.toNat → s.levelAt s.cursor.toNat = false →
    exec .startHit s =
      .next { s with cursor := s.cursor + s.advStart, bitIndex := 0, accumulator := 0#5, phase := .framing }

/-- Rule R122: its selectors, and its effect. -/
def Obligations.StartMissAdvancesOneSample : Prop :=
  (∀ sel : BitVec 4, decodeSelector sel = some .startMiss ↔ sel &&& 0b1101#4 = 0b0001#4) ∧
  ∀ s : State, s.Running → s.phase = .awaitingStart → s.cursor.toNat < s.n.toNat → s.levelAt s.cursor.toNat = true →
    exec .startMiss s = .next { s with cursor := s.cursor + 1 }

/-- Rule R123: bit `bit_index` of the accumulator is set and its other bits are as before. -/
def Obligations.DataMarkSetsOneBit : Prop :=
  (∀ sel : BitVec 4, decodeSelector sel = some .dataMark ↔ sel &&& 0b1111#4 = 0b0101#4) ∧
  ∀ s : State, s.Running → s.phase = .framing → s.bitIndex.val ≤ 4 → s.cursor.toNat < s.n.toNat →
    s.levelAt s.cursor.toNat = true →
    ∃ t, exec .dataMark s = .next t ∧
      t = { s with accumulator := t.accumulator, bitIndex := t.bitIndex, cursor := s.cursor + s.advBit } ∧
      t.bitIndex.val = s.bitIndex.val + 1 ∧
      ∀ k, k < 5 → t.accumulator.getLsbD k = (s.accumulator.getLsbD k || decide (k = s.bitIndex.val))

/-- Rule R124: the accumulator is as before. -/
def Obligations.DataSpaceSetsNoBit : Prop :=
  (∀ sel : BitVec 4, decodeSelector sel = some .dataSpace ↔ sel &&& 0b1111#4 = 0b0100#4) ∧
  ∀ s : State, s.Running → s.phase = .framing → s.bitIndex.val ≤ 4 → s.cursor.toNat < s.n.toNat →
    s.levelAt s.cursor.toNat = false →
    ∃ t, exec .dataSpace s = .next t ∧
      t = { s with bitIndex := t.bitIndex, cursor := s.cursor + s.advBit } ∧ t.bitIndex.val = s.bitIndex.val + 1

/-- Rule R125: no sample is read, so the step needs no readable one, and the cursor does not move. -/
def Obligations.FrameCompleteMovesNoCursor : Prop :=
  (∀ sel : BitVec 4, decodeSelector sel = some .frameComplete ↔ sel &&& 0b1110#4 = 0b0110#4) ∧
  ∀ s : State, s.Running → s.phase = .framing → s.bitIndex = 5 →
    exec .frameComplete s = .next { s with phase := .awaitingStop }

/-- Rule R127: nothing is written to OUT and `active_table` is as before, whatever the accumulator held. -/
def Obligations.StopFailDropsTheFrame : Prop :=
  (∀ sel : BitVec 4, decodeSelector sel = some .stopFail ↔ sel &&& 0b1101#4 = 0b1000#4) ∧
  ∀ s : State, s.Running → s.phase = .awaitingStop → s.cursor.toNat < s.n.toNat → s.levelAt s.cursor.toNat = false →
    exec .stopFail s = .next { s with accumulator := 0#5, phase := .awaitingStart }

/-- Rule R126: the mapper runs on the accumulator (30_encoding.md rule R78), the byte lands at OUT[out_count], and the
accumulator and the phase are reset. -/
def Obligations.StopMatchEmitsOneByte : Prop :=
  (∀ sel : BitVec 4, decodeSelector sel = some .stopMatch ↔ sel &&& 0b1101#4 = 0b1001#4) ∧
  ∀ s : State, s.Running → s.phase = .awaitingStop → s.cursor.toNat < s.n.toNat → s.levelAt s.cursor.toNat = true →
    exec .stopMatch s =
      .next { s with
        activeTable := if s.accumulator = 27#5 then .figures else if s.accumulator = 31#5 then .letters else s.activeTable
        out := Memory.write s.out s.outCount.toNat
          (if s.accumulator = 27#5 ∨ s.accumulator = 31#5 then 0x00#8 else tableByte s.activeTable s.accumulator)
        outCount := s.outCount + 1
        accumulator := 0#5
        phase := .awaitingStart }

/-- Rule R126 with 30_encoding.md rule R78: STOP_MATCH is the mapper operation that the accumulator decodes to, followed
by `accumulator <- 0` and `phase <- AwaitingStart`. -/
def Obligations.StopMatchRunsTheDecodedMapperOperation : Prop :=
  ∀ s t : State, s.Running → s.phase = .awaitingStop → s.cursor.toNat < s.n.toNat → s.levelAt s.cursor.toNat = true →
    exec (decodeMapper s.accumulator) s = .next t →
    exec .stopMatch s = .next { t with accumulator := 0#5, phase := .awaitingStart }

/-- 40_sampler.md rule R108 and the preconditions of rules R121 to R127: a step kind asked for where no DECODE runs, where
the guard fails, or in another phase answers no next state. -/
def Obligations.StepKindsNeedTheirGuardAndPhase : Prop :=
  ∀ s t : State,
    (exec .startHit s = .next t ∨ exec .startMiss s = .next t → s.Running ∧ s.phase = .awaitingStart) ∧
    (exec .dataMark s = .next t ∨ exec .dataSpace s = .next t → s.Running ∧ s.phase = .framing ∧ s.bitIndex.val ≤ 4) ∧
    (exec .frameComplete s = .next t → s.Running ∧ s.phase = .framing ∧ s.bitIndex.val = 5) ∧
    (exec .stopMatch s = .next t ∨ exec .stopFail s = .next t → s.Running ∧ s.phase = .awaitingStop)

/-- Where the model stops, by name: a command while busy = 1, which "has no move" (20_memory.md rule R64); a step kind where
no DECODE runs or the guard fails (40_sampler.md rule R108); a mapper operation where the output is full (20_memory.md
rule R53's precondition); a step kind that reads a sample where the cursor is outside the window (rule R51's
precondition). The names are the model's; no run reaches any of these stops (`Obligations.InvariantStatesNeverStop`). -/
def Obligations.StopsNameTheirReason : Prop :=
  ∀ (s : State) (pol : Bool) (rate baud w0 w1 w2 : Word) (n m : Index) (d : HostInt) (c : Code) (i : Instr),
    (s.busy = true → i = .configure pol rate baud ∨ i = .decode n m ∨ i = .reqin d ∨ i = .reserved w0 w1 w2 →
      exec i s = .refused .commandWhileBusy) ∧
    (¬ s.Running →
      i = .startHit ∨ i = .startMiss ∨ i = .dataSpace ∨ i = .dataMark ∨ i = .frameComplete ∨ i = .stopFail ∨ i = .stopMatch →
      exec i s = .refused .stepNotAllowed) ∧
    (s.maxOut.toNat ≤ s.outCount.toNat → i = .mapFigs ∨ i = .mapLtrs ∨ i = .mapChar c → exec i s = .refused .outputIndex) ∧
    (s.Running → s.n.toNat ≤ s.cursor.toNat →
      (s.phase = .awaitingStart ∧ (i = .startHit ∨ i = .startMiss)) ∨ (s.phase = .framing ∧ (i = .dataSpace ∨ i = .dataMark)) ∨
        (s.phase = .awaitingStop ∧ (i = .stopFail ∨ i = .stopMatch)) →
      exec i s = .refused .windowIndex)

/-! ### The mapper -/

/-- 42_alphabet_mapper.md rule R151. -/
def Obligations.MapFigsSelectsFiguresAndAppendsNull : Prop :=
  (∀ c : Code, decodeMapper c = .mapFigs ↔ c = 0b11011#5) ∧
  ∀ s : State, s.outCount.toNat < s.maxOut.toNat →
    exec .mapFigs s =
      .next { s with
        activeTable := .figures, out := Memory.write s.out s.outCount.toNat 0x00#8, outCount := s.outCount + 1 }

/-- Rule R152. -/
def Obligations.MapLtrsSelectsLettersAndAppendsNull : Prop :=
  (∀ c : Code, decodeMapper c = .mapLtrs ↔ c = 0b11111#5) ∧
  ∀ s : State, s.outCount.toNat < s.maxOut.toNat →
    exec .mapLtrs s =
      .next { s with
        activeTable := .letters, out := Memory.write s.out s.outCount.toNat 0x00#8, outCount := s.outCount + 1 }

/-- Rule R153, for every table contents: the byte is the active table's entry at the code. -/
def Obligations.MapCharAppendsTheActiveTablesEntry : Prop :=
  (∀ c : Code, c ≠ 0b11011#5 → c ≠ 0b11111#5 → decodeMapper c = .mapChar c) ∧
  ∀ (s : State) (code : Code), code ≠ 27#5 → code ≠ 31#5 → s.outCount.toNat < s.maxOut.toNat →
    exec (.mapChar code) s =
      .next { s with
        out := Memory.write s.out s.outCount.toNat
          (match s.activeTable with
           | .letters => lettersTable.getD code.toNat 0
           | .figures => figuresTable.getD code.toNat 0)
        outCount := s.outCount + 1 }

/-- Rule R150: the three entries the source fixes, in both tables, each of which has 32 entries. -/
def Obligations.TablesHoldNullAtTheFixedCodes : Prop :=
  lettersTable.length = 32 ∧ figuresTable.length = 32 ∧
  ∀ t : Table, tableByte t 0#5 = 0x00#8 ∧ tableByte t 27#5 = 0x00#8 ∧ tableByte t 31#5 = 0x00#8

/-! ### The commands -/

/-- 43_host_commands.md rule R171: a successful CONFIGURE. -/
def Obligations.ConfigureConstructsTheDecoder : Prop :=
  ∀ (s : State) (pol : Bool) (rate baud : Word), s.busy = false →
    invalidRates rate baud = false → admitted rate baud = true →
    exec (.configure pol rate baud) s =
      .next { s with
        configured := true, cfgRate := rate, cfgBaud := baud, cfgPol := pol
        spb := fl64Div rate baud
        advBit := BitVec.ofNat 32 (f64Floor (fl64Div rate baud))
        advStart := BitVec.ofNat 32 (f64Floor (fl64Mul 0x3FF8000000000000 (fl64Div rate baud)))
        lookahead := BitVec.ofNat 32 (f64Ceil (fl64Mul 0x4020000000000000 (fl64Div rate baud)))
        phase := .awaitingStart, bitIndex := 0, accumulator := 0#5, activeTable := .letters
        cmd := none, rsp := some (Response.mk 0 0 0) }

/-- 60_exceptions.md rule R201: a rate or baud that compares `<= 0` (a zero, or a sign 1 on a word that is no NaN) gets
InvalidConfig, whatever the other is, and no other state changes. -/
def Obligations.ConfigureRejectsNonPositiveRates : Prop :=
  ∀ (s : State) (pol : Bool) (rate baud : Word), s.busy = false →
    ((f64IsNaN rate = false ∧ (f64IsZero rate = true ∨ f64Sign rate = true)) ∨
     (f64IsNaN baud = false ∧ (f64IsZero baud = true ∨ f64Sign baud = true))) →
    exec (.configure pol rate baud) s = .next { s with cmd := none, rsp := some (Response.mk 0b01 0 0) }

/-- 40_sampler.md rule R109 with rule R171: a configuration that passes the `<= 0` check and is not admitted is refused. -/
def Obligations.ConfigureRefusesWhatIsNotAdmitted : Prop :=
  ∀ (s : State) (pol : Bool) (rate baud : Word), s.busy = false →
    invalidRates rate baud = false → admitted rate baud = false →
    exec (.configure pol rate baud) s = .refused .configNotAdmitted

/-- 43_host_commands.md rule R172, the acceptance of a DECODE: busy is held, the cursor and the count start at 0, and N
and MAX_OUT are latched. -/
def Obligations.DecodeLatchesItsOperands : Prop :=
  ∀ (s : State) (n m : Index), s.busy = false → s.configured = true →
    exec (.decode n m) s =
      .next { s with busy := true, cursor := 0, outCount := 0, n := n, maxOut := m, cmd := none, rsp := none }

/-- 60_exceptions.md rule R202: DECODE and REQIN before a successful CONFIGURE get NotConfigured, and no other state
changes. -/
def Obligations.DecodeAndReqinNeedAConfiguration : Prop :=
  ∀ (s : State) (n m : Index) (d : HostInt), s.busy = false → s.configured = false →
    exec (.decode n m) s = .next { s with cmd := none, rsp := some (Response.mk 0b10 0 0) } ∧
    exec (.reqin d) s = .next { s with cmd := none, rsp := some (Response.mk 0b10 0 0) }

/-- 43_host_commands.md rule R173: under every admitted configuration REQIN completes for every argument, with the
quotient truncated toward zero and saturated, and writes no state. -/
def Obligations.ReqinAnswersTheTruncatedQuotient : Prop :=
  ∀ (s : State) (d : HostInt), s.busy = false → s.configured = true →
    invalidRates s.cfgRate s.cfgBaud = false → admitted s.cfgRate s.cfgBaud = true →
    f64IsFinite (reqinQuotient s.cfgRate s.cfgBaud d) = true ∧
    exec (.reqin d) s =
      .next { s with
        cmd := none
        rsp := some (Response.mk 0
          ((BitVec.ofInt 32 (min (max (f64Trunc (reqinQuotient s.cfgRate s.cfgBaud d)) (-2147483648)) 2147483647)).signExtend 64)
          0) }

/-- Rule R173's corner cases: `d = 0` gives 0, and `d < 0` gives a result ≤ 0. -/
def Obligations.ReqinSignFollowsItsArgument : Prop :=
  ∀ (rate baud : Word) (d v : HostInt), invalidRates rate baud = false → admitted rate baud = true →
    reqinResult rate baud d = some v →
    (d = 0 → v = 0) ∧ (d.toInt < 0 → v.toInt ≤ 0) ∧ (0 < d.toInt → 0 ≤ v.toInt)

/-- Rule R174, in every idle state. It holds for RESERVED with any words; that words of a defined command get the same
answer is the model's choice (log entry 23, DESIGN CHOICE), and the decoder never gives such a term
(`Obligations.DecodedInstructionsAreWellFormed`). -/
def Obligations.ReservedIsAnsweredInAnyState : Prop :=
  ∀ (s : State) (w0 w1 w2 : Word), s.busy = false →
    exec (.reserved w0 w1 w2) s = .next { s with cmd := none, rsp := some (Response.mk 0b11 0 0) }

/-! ### Frames: what each instruction leaves unchanged -/

/-- Rules R121 to R125 and R127, the six step kinds that write no output: the configuration, `active_table`, the count,
N, MAX_OUT and busy, both memories and the ports are as before. START_MISS leaves all of DecoderState; the data steps
leave the phase, and DATA_SPACE the accumulator too; FRAME_COMPLETE and STOP_FAIL leave the cursor and `bit_index`, and
FRAME_COMPLETE the accumulator too. -/
def Obligations.SilentStepKindsFrame : Prop :=
  ∀ (s t : State) (i : Instr),
    i = .startHit ∨ i = .startMiss ∨ i = .dataSpace ∨ i = .dataMark ∨ i = .frameComplete ∨ i = .stopFail →
    exec i s = .next t →
    s.SameConfig t ∧ t.activeTable = s.activeTable ∧
    t.outCount = s.outCount ∧ t.n = s.n ∧ t.maxOut = s.maxOut ∧ t.busy = s.busy ∧
    s.SameWindow t ∧ s.SameOutput t ∧ s.SamePorts t ∧
    (i = .startMiss → s.SameDecoder t) ∧
    (i = .dataSpace ∨ i = .dataMark → t.phase = s.phase) ∧
    (i = .dataSpace ∨ i = .frameComplete → t.accumulator = s.accumulator) ∧
    (i = .frameComplete ∨ i = .stopFail → t.cursor = s.cursor ∧ t.bitIndex = s.bitIndex)

/-- Rules R126 and R155: STOP_MATCH and the three mapper operations change OUT at index out_count alone; the cursor, N,
MAX_OUT, busy, `bit_index`, the configuration, the window and the ports are as before; the mapper operations leave the
phase and the accumulator too, and MAP_CHAR `active_table`. -/
def Obligations.EmittingInstructionsFrame : Prop :=
  ∀ (s t : State) (i : Instr) (c : Code),
    i = .stopMatch ∨ i = .mapFigs ∨ i = .mapLtrs ∨ i = .mapChar c →
    exec i s = .next t →
    s.SameConfig t ∧ t.bitIndex = s.bitIndex ∧
    t.cursor = s.cursor ∧ t.n = s.n ∧ t.maxOut = s.maxOut ∧ t.busy = s.busy ∧
    s.SameWindow t ∧ s.SameOutputBut s.outCount.toNat t ∧ s.SamePorts t ∧
    t.outCount.toNat = s.outCount.toNat + 1 ∧
    (i ≠ .stopMatch → t.phase = s.phase ∧ t.accumulator = s.accumulator) ∧
    (i = .mapChar c → t.activeTable = s.activeTable)

/-- Rules R170 to R174: the four commands leave WIN and OUT and the reset line alone; CONFIGURE leaves the transaction
group; DECODE, REQIN and RESERVED leave the configuration and DecoderState; REQIN and RESERVED the transaction group
too. Each takes its command off the port. -/
def Obligations.CommandsFrame : Prop :=
  ∀ (s t : State) (i : Instr) (pol : Bool) (rate baud w0 w1 w2 : Word) (n m : Index) (d : HostInt),
    i = .configure pol rate baud ∨ i = .decode n m ∨ i = .reqin d ∨ i = .reserved w0 w1 w2 →
    exec i s = .next t →
    s.SameWindow t ∧ s.SameOutput t ∧ t.rst = s.rst ∧ t.cmd = none ∧
    (i ≠ .decode n m → s.SameTransaction t) ∧
    (i ≠ .configure pol rate baud → s.SameConfig t ∧ s.SameDecoder t)

/-- 60_exceptions.md rules R200 and R207: a command that ends with an error status has changed no state. -/
def Obligations.ErrorResponsesChangeNoState : Prop :=
  ∀ (s t : State) (i : Instr) (r : Response),
    exec i s = .next t → t.cmd ≠ s.cmd ∨ t.rsp ≠ s.rsp → t.rsp = some r → r.r0 ≠ 0 →
    t = { s with cmd := none, rsp := some r } ∧ r.r1 = 0 ∧ r.r2 = 0

/-! ### Whole-machine rules -/

/-- 10_state.md rule R21: only a successful CONFIGURE sets `configured` to 1, and only reset clears it. -/
def Obligations.OnlyConfigureSetsAndResetClearsConfigured : Prop :=
  ∀ s t : State, step s = .next t →
    (s.configured = false → t.configured = true →
      ∃ pol rate baud, fetch s = .run (.configure pol rate baud) ∧ invalidRates rate baud = false ∧ admitted rate baud = true) ∧
    (s.configured = true → t.configured = false → s.rst = true)

/-- Rules R20 and R22 to R25: nothing but a successful CONFIGURE and reset writes the configuration group. -/
def Obligations.OnlyConfigureAndResetWriteTheConfiguration : Prop :=
  ∀ s t : State, step s = .next t → ¬ s.SameConfig t →
    s.rst = true ∨
    ∃ pol rate baud, fetch s = .run (.configure pol rate baud) ∧ invalidRates rate baud = false ∧ admitted rate baud = true

/-- Rule R29 and 42_alphabet_mapper.md rule R155: the shift state changes only by a STOP_MATCH on code 27 or 31, by a
successful CONFIGURE, or by reset; a STOP_FAIL never changes it. -/
def Obligations.OnlyShiftCodesConfigureAndResetWriteTheTable : Prop :=
  ∀ s t : State, step s = .next t → t.activeTable ≠ s.activeTable →
    s.rst = true ∨
    (fetch s = .run .stopMatch ∧ s.accumulator = 27#5 ∧ t.activeTable = .figures) ∨
    (fetch s = .run .stopMatch ∧ s.accumulator = 31#5 ∧ t.activeTable = .letters) ∨
    ∃ pol rate baud, fetch s = .run (.configure pol rate baud) ∧ invalidRates rate baud = false ∧ admitted rate baud = true

/-- 20_memory.md rules R50 and R52: no step writes the window, and a step changes the output buffer only where it is a
STOP_MATCH, at index out_count, which it then raises by 1. -/
def Obligations.OnlyStopMatchWritesOutput : Prop :=
  ∀ s t : State, step s = .next t →
    t.win = s.win ∧
    (t.out ≠ s.out →
      fetch s = .run .stopMatch ∧ s.SameOutputBut s.outCount.toNat t ∧
      Memory.read t.out s.outCount.toNat ≠ none ∧ t.outCount.toNat = s.outCount.toNat + 1)

/-- 10_state.md rule R33: busy rises only where a DECODE is accepted by a configured core, and falls only at the end of
its loop, with a response, or by reset. -/
def Obligations.BusyHoldsFromAcceptanceToResponse : Prop :=
  ∀ s t : State, step s = .next t →
    (s.busy = false → t.busy = true → s.configured = true ∧ ∃ n m, fetch s = .run (.decode n m)) ∧
    (s.busy = true → t.busy = false → s.rst = true ∨ (fetch s = .loopEnd ∧ t.rsp ≠ none))

/-- 41_frame_decoder.md rule R128: inside a DECODE these are the only phase changes, each by its step kind. -/
def Obligations.PhaseMovesOnlyAlongTheTransitionGraph : Prop :=
  ∀ (s t : State) (i : Instr), s.busy = true → fetch s = .run i → step s = .next t →
    (s.phase = .awaitingStart ∧ t.phase = .awaitingStart ∧ i = .startMiss) ∨
    (s.phase = .awaitingStart ∧ t.phase = .framing ∧ i = .startHit) ∨
    (s.phase = .framing ∧ t.phase = .framing ∧ (i = .dataMark ∨ i = .dataSpace)) ∨
    (s.phase = .framing ∧ t.phase = .awaitingStop ∧ i = .frameComplete) ∨
    (s.phase = .awaitingStop ∧ t.phase = .awaitingStart ∧ (i = .stopMatch ∨ i = .stopFail))

/-- 40_sampler.md rules R106 and R107: a step advances the cursor by 0, 1, ADV_BIT or ADV_START, without wrapping, and
leaves it at most N. -/
def Obligations.CursorAdvancesForwardWithinTheWindow : Prop :=
  ∀ (s t : State) (i : Instr), s.Inv → s.busy = true → fetch s = .run i → step s = .next t →
    (t.cursor.toNat = s.cursor.toNat ∨ t.cursor.toNat = s.cursor.toNat + 1 ∨
      t.cursor.toNat = s.cursor.toNat + s.advBit.toNat ∨ t.cursor.toNat = s.cursor.toNat + s.advStart.toNat) ∧
    t.cursor.toNat ≤ s.n.toNat

/-- 40_sampler.md rule R112 and 70_reset_and_hazards.md rule R229: after a STOP_FAIL, if the guard still holds, the next
step is a START_HIT at the same cursor. -/
def Obligations.FailedStopRetriggersAtTheSameSample : Prop :=
  ∀ s : State, s.rst = false → s.Running → s.phase = .awaitingStop → s.cursor.toNat < s.n.toNat →
    s.levelAt s.cursor.toNat = false →
    ∃ t u, step s = .next t ∧ t.cursor = s.cursor ∧ t.outCount = s.outCount ∧
      fetch t = .run .startHit ∧ step t = .next u ∧ u.phase = .framing ∧ u.cursor = s.cursor + s.advStart

/-- 43_host_commands.md rule R175: a DECODE that ends has filled its output or is short of input, and answers OK with the
final cursor and the final count, busy = 0. The model's choices, all DESIGN CHOICE: that the end is one step of its own
(log entry 12), that cursor, out_count, N and MAX_OUT keep their values after it (log entry 21; the spec gives them none
outside a DECODE), and the ports (log entry 8). -/
def Obligations.DecodeEndsFullOrShortOfInput : Prop :=
  ∀ s : State, s.Inv → s.rst = false → s.busy = true → ¬ s.StepAllowed →
    (s.outCount = s.maxOut ∨ (s.outCount.toNat < s.maxOut.toNat ∧ s.n.toNat < s.cursor.toNat + s.lookahead.toNat)) ∧
    step s = .next { s with
      busy := false, cmd := none
      rsp := some (Response.mk 0 (s.cursor.setWidth 64) (s.outCount.setWidth 64)) }

/-- Rule R175's bound, one step at a time: a step that the guard let run leaves the cursor at most
`N − LOOKAHEAD + max(1, ADV_START, ADV_BIT)`. -/
def Obligations.CursorEndsWithinTheConsumedBound : Prop :=
  ∀ (s t : State) (i : Instr), s.Inv → s.busy = true → fetch s = .run i → step s = .next t →
    t.cursor.toNat + s.lookahead.toNat ≤ s.n.toNat + max 1 (max s.advStart.toNat s.advBit.toNat)

/-! ### The derived constants -/

/-- Rule R107's second sentence: for every admitted configuration, `max(1, ADV_BIT, ADV_START) ≤ LOOKAHEAD`. -/
def Obligations.AdvancesFitInTheLookahead : Prop :=
  ∀ rate baud : Word, invalidRates rate baud = false → admitted rate baud = true →
    1 ≤ lookaheadOf (spbOf rate baud) ∧ advBitOf (spbOf rate baud) ≤ lookaheadOf (spbOf rate baud) ∧
    advStartOf (spbOf rate baud) ≤ lookaheadOf (spbOf rate baud)

/-- Rule R105: `fl64(8 × SPB)` is exact for every admitted configuration. -/
def Obligations.EightTimesSpbIsExact : Prop :=
  ∀ rate baud : Word, invalidRates rate baud = false → admitted rate baud = true →
    f64Mag (lookaheadProduct (spbOf rate baud)) = 8 * f64Mag (spbOf rate baud)

/-- Rule R110: the constants at 8000/45.45. -/
def Obligations.TruncationFidelityAt8000Over4545 : Prop :=
  spbOf 0x40BF400000000000 0x4046B9999999999A = 0x40660090319109DB ∧
  advBitOf 0x40660090319109DB = 176 ∧ advStartOf 0x40660090319109DB = 264 ∧ lookaheadOf 0x40660090319109DB = 1409

/-! ### Invariants -/

/-- From every state that keeps the invariant (Safety.lean: both memories in canonical form; an admitted configuration
and the constants derived from it; cursor ≤ N, out_count ≤ MAX_OUT; the accumulator discipline of rule R129), a step
gives a state that keeps it. -/
def Obligations.StepKeepsTheInvariant : Prop :=
  ∀ s t : State, s.Inv → step s = .next t → t.Inv

/-- 60_exceptions.md rule R214: the core has no fault outcome (`Fault` has no constructor), and the one thing a run refuses is a CONFIGURE that is not
admitted. -/
def Obligations.InvariantStatesNeverStop : Prop :=
  ∀ s : State, s.Inv →
    (∃ t, step s = .next t) ∨
    (step s = .refused .configNotAdmitted ∧
      ∃ pol rate baud, fetch s = .run (.configure pol rate baud) ∧ invalidRates rate baud = false ∧ admitted rate baud = false)

/-- 70_reset_and_hazards.md rule R224: what the host may do between steps keeps the invariant. -/
def Obligations.HostMovesKeepTheInvariant : Prop :=
  ∀ (s t : State), s.Inv →
    (hostReset s).Inv ∧
    (∀ c, hostOffer c s = some t → t.Inv) ∧
    (∀ i w, hostWriteWindow i w s = some t → t.Inv) ∧
    (∀ ws, hostPresentWindow ws s = some t → t.Inv) ∧
    (∀ i b, hostWriteOut i b s = some t → t.Inv) ∧
    (∀ r, hostTakeResponse s = some (r, t) → t.Inv)

/-! ### Runs -/

/-- 70_reset_and_hazards.md rule R227: with ADV_START = 0 and ADV_BIT = 0, a DECODE in AwaitingStart on a space-level
sample with the guard true runs for ever: after any number of steps it is still busy, at the same cursor, with the output
untouched and no response. -/
def Obligations.ZeroStartAdvanceHangs : Prop :=
  ∀ s : State, s.rst = false → s.Running → s.advStart = 0 → s.advBit = 0 → s.phase = .awaitingStart →
    s.cursor.toNat < s.n.toNat → s.levelAt s.cursor.toNat = false →
    ∀ k, ∃ t, Host.Core.run Sys2Proof.core k s = .next t ∧
      t.busy = true ∧ t.cursor = s.cursor ∧ t.out = s.out ∧ t.outCount = s.outCount ∧ t.rsp = s.rsp

/-- 41_frame_decoder.md rule R130: with ADV_START ≥ 1, eight consecutive steps of a DECODE advance the cursor by at
least 1. -/
def Obligations.EightStepsAdvanceTheCursor : Prop :=
  ∀ s t : State, s.Inv → s.busy = true → 1 ≤ s.advStart.toNat →
    (∀ k u, k < 8 → Host.Core.run Sys2Proof.core k s = .next u → ∃ i, fetch u = .run i) →
    Host.Core.run Sys2Proof.core 8 s = .next t → s.cursor.toNat + 1 ≤ t.cursor.toNat

/-- Rule R130: with ADV_START ≥ 1 a DECODE ends: after some number of steps the core is idle again and has answered OK
with the final cursor and the final count. These two are read in the state after the end, where the spec gives cursor and
out_count no value: that they keep the DECODE's last values there is the model's choice (log entry 21, DESIGN CHOICE), as
are the step that ends the DECODE (log entry 12) and the response port (log entry 8). -/
def Obligations.DecodeTerminatesWhenStartAdvances : Prop :=
  ∀ s : State, s.Inv → s.rst = false → s.busy = true → 1 ≤ s.advStart.toNat →
    ∃ k t, Host.Core.run Sys2Proof.core k s = .next t ∧ t.busy = false ∧
      t.rsp = some (Response.mk 0 (t.cursor.setWidth 64) (t.outCount.setWidth 64))

/-- 40_sampler.md rule R111 with 41_frame_decoder.md rules R121 to R128: a frame whose START_HIT is at the cursor, with
the guard true up to its stop test, takes eight steps. Its code is assembled from the samples at
`cursor + ADV_START + k·ADV_BIT`, first bit lowest; its stop test is at `k = 5`, where the cursor is left. A mark there
appends the mapper's byte for the code and applies a shift; a space there emits nothing and leaves the table. -/
def Obligations.FrameIsDecodedFromItsSamplingPositions : Prop :=
  ∀ s : State, s.rst = false → s.busy = true → s.phase = .awaitingStart →
    s.outCount.toNat < s.maxOut.toNat → 1 ≤ s.lookahead.toNat →
    s.frameIndex 5 + s.lookahead.toNat ≤ s.n.toNat → s.levelAt s.cursor.toNat = false →
    ∃ t, Host.Core.run Sys2Proof.core 8 s = .next t ∧
      t.phase = .awaitingStart ∧ t.accumulator = 0#5 ∧ t.bitIndex = 5 ∧ t.cursor.toNat = s.frameIndex 5 ∧
      s.SameConfig t ∧ t.busy = true ∧
      (s.levelAt (s.frameIndex 5) = true →
        t.out = Memory.write s.out s.outCount.toNat (mappedByte s.frameCode s.activeTable) ∧
        t.outCount = s.outCount + 1 ∧ t.activeTable = tableAfter s.frameCode s.activeTable) ∧
      (s.levelAt (s.frameIndex 5) = false →
        t.out = s.out ∧ t.outCount = s.outCount ∧ t.activeTable = s.activeTable)

/-- 43_host_commands.md rule R176: a call in AwaitingStart at `c0` that meets only marks before `e`, with
`N − e < LOOKAHEAD`, runs only START_MISS steps, stops at `max(c0, N − LOOKAHEAD + 1) ≤ e`, and then ends: the frame at
`e` is deferred to the next call. -/
def Obligations.FrameNearTheWindowsEndIsDeferred : Prop :=
  ∀ (s : State) (e : Nat), s.Inv → s.rst = false → s.busy = true → s.phase = .awaitingStart →
    s.outCount.toNat < s.maxOut.toNat → s.cursor.toNat ≤ e → s.n.toNat < e + s.lookahead.toNat →
    (∀ i, s.cursor.toNat ≤ i → i < e → s.levelAt i = true) →
    ∃ k t, Host.Core.run Sys2Proof.core k s = .next t ∧
      t.cursor.toNat = max s.cursor.toNat (s.n.toNat + 1 - s.lookahead.toNat) ∧ t.cursor.toNat ≤ e ∧
      t = { s with cursor := t.cursor } ∧ fetch t = .loopEnd

/-- 43_host_commands.md rule R177: a DECODE that resumes a stream `p` samples and `q` bytes further on runs the same
steps on the same samples, and keeps doing so after each. -/
def Obligations.ResumedDecodeRunsTheSameSteps : Prop :=
  ∀ (p q : Nat) (s t s' : State) (i : Instr), s.Inv → t.Inv → s.rst = false → s.busy = true → s.Resumes p q t →
    fetch s = .run i → step s = .next s' →
    fetch t = .run i ∧ ∃ t', step t = .next t' ∧ s'.Resumes p q t'
end

