-- ==== Sys2Proof/Laws/State.lean ====
section
/-! SUPPORT. For each named update of the state, what it makes of each field: true by unfolding, stated once, so that no
later proof unfolds a record update. -/

namespace Sys2Proof.Machine

@[simp] theorem raise_eq_respond (e : Status) (s : State) : raise e s = respond e 0 0 s := rfl

/-! ### respond -/

@[simp] theorem respond_configured (st : Status) (r1 r2 : Word) (s : State) : (respond st r1 r2 s).configured = s.configured := rfl
@[simp] theorem respond_cfgRate (st : Status) (r1 r2 : Word) (s : State) : (respond st r1 r2 s).cfgRate = s.cfgRate := rfl
@[simp] theorem respond_cfgBaud (st : Status) (r1 r2 : Word) (s : State) : (respond st r1 r2 s).cfgBaud = s.cfgBaud := rfl
@[simp] theorem respond_cfgPol (st : Status) (r1 r2 : Word) (s : State) : (respond st r1 r2 s).cfgPol = s.cfgPol := rfl
@[simp] theorem respond_spb (st : Status) (r1 r2 : Word) (s : State) : (respond st r1 r2 s).spb = s.spb := rfl
@[simp] theorem respond_advBit (st : Status) (r1 r2 : Word) (s : State) : (respond st r1 r2 s).advBit = s.advBit := rfl
@[simp] theorem respond_advStart (st : Status) (r1 r2 : Word) (s : State) : (respond st r1 r2 s).advStart = s.advStart := rfl
@[simp] theorem respond_lookahead (st : Status) (r1 r2 : Word) (s : State) : (respond st r1 r2 s).lookahead = s.lookahead := rfl
@[simp] theorem respond_phase (st : Status) (r1 r2 : Word) (s : State) : (respond st r1 r2 s).phase = s.phase := rfl
@[simp] theorem respond_bitIndex (st : Status) (r1 r2 : Word) (s : State) : (respond st r1 r2 s).bitIndex = s.bitIndex := rfl
@[simp] theorem respond_accumulator (st : Status) (r1 r2 : Word) (s : State) : (respond st r1 r2 s).accumulator = s.accumulator := rfl
@[simp] theorem respond_activeTable (st : Status) (r1 r2 : Word) (s : State) : (respond st r1 r2 s).activeTable = s.activeTable := rfl
@[simp] theorem respond_cursor (st : Status) (r1 r2 : Word) (s : State) : (respond st r1 r2 s).cursor = s.cursor := rfl
@[simp] theorem respond_outCount (st : Status) (r1 r2 : Word) (s : State) : (respond st r1 r2 s).outCount = s.outCount := rfl
@[simp] theorem respond_n (st : Status) (r1 r2 : Word) (s : State) : (respond st r1 r2 s).n = s.n := rfl
@[simp] theorem respond_maxOut (st : Status) (r1 r2 : Word) (s : State) : (respond st r1 r2 s).maxOut = s.maxOut := rfl
@[simp] theorem respond_busy (st : Status) (r1 r2 : Word) (s : State) : (respond st r1 r2 s).busy = s.busy := rfl
@[simp] theorem respond_win (st : Status) (r1 r2 : Word) (s : State) : (respond st r1 r2 s).win = s.win := rfl
@[simp] theorem respond_out (st : Status) (r1 r2 : Word) (s : State) : (respond st r1 r2 s).out = s.out := rfl
@[simp] theorem respond_rst (st : Status) (r1 r2 : Word) (s : State) : (respond st r1 r2 s).rst = s.rst := rfl
@[simp] theorem respond_cmd (st : Status) (r1 r2 : Word) (s : State) : (respond st r1 r2 s).cmd = none := rfl
@[simp] theorem respond_rsp (st : Status) (r1 r2 : Word) (s : State) : (respond st r1 r2 s).rsp = some (responseWords st r1 r2) := rfl

/-! ### startDecode -/

@[simp] theorem startDecode_configured (n m : Index) (s : State) : (startDecode n m s).configured = s.configured := rfl
@[simp] theorem startDecode_cfgRate (n m : Index) (s : State) : (startDecode n m s).cfgRate = s.cfgRate := rfl
@[simp] theorem startDecode_cfgBaud (n m : Index) (s : State) : (startDecode n m s).cfgBaud = s.cfgBaud := rfl
@[simp] theorem startDecode_cfgPol (n m : Index) (s : State) : (startDecode n m s).cfgPol = s.cfgPol := rfl
@[simp] theorem startDecode_spb (n m : Index) (s : State) : (startDecode n m s).spb = s.spb := rfl
@[simp] theorem startDecode_advBit (n m : Index) (s : State) : (startDecode n m s).advBit = s.advBit := rfl
@[simp] theorem startDecode_advStart (n m : Index) (s : State) : (startDecode n m s).advStart = s.advStart := rfl
@[simp] theorem startDecode_lookahead (n m : Index) (s : State) : (startDecode n m s).lookahead = s.lookahead := rfl
@[simp] theorem startDecode_phase (n m : Index) (s : State) : (startDecode n m s).phase = s.phase := rfl
@[simp] theorem startDecode_bitIndex (n m : Index) (s : State) : (startDecode n m s).bitIndex = s.bitIndex := rfl
@[simp] theorem startDecode_accumulator (n m : Index) (s : State) : (startDecode n m s).accumulator = s.accumulator := rfl
@[simp] theorem startDecode_activeTable (n m : Index) (s : State) : (startDecode n m s).activeTable = s.activeTable := rfl
@[simp] theorem startDecode_cursor (n m : Index) (s : State) : (startDecode n m s).cursor = 0 := rfl
@[simp] theorem startDecode_outCount (n m : Index) (s : State) : (startDecode n m s).outCount = 0 := rfl
@[simp] theorem startDecode_n (n m : Index) (s : State) : (startDecode n m s).n = n := rfl
@[simp] theorem startDecode_maxOut (n m : Index) (s : State) : (startDecode n m s).maxOut = m := rfl
@[simp] theorem startDecode_busy (n m : Index) (s : State) : (startDecode n m s).busy = true := rfl
@[simp] theorem startDecode_win (n m : Index) (s : State) : (startDecode n m s).win = s.win := rfl
@[simp] theorem startDecode_out (n m : Index) (s : State) : (startDecode n m s).out = s.out := rfl
@[simp] theorem startDecode_rst (n m : Index) (s : State) : (startDecode n m s).rst = s.rst := rfl
@[simp] theorem startDecode_cmd (n m : Index) (s : State) : (startDecode n m s).cmd = none := rfl
@[simp] theorem startDecode_rsp (n m : Index) (s : State) : (startDecode n m s).rsp = none := rfl

/-! ### endDecode -/

@[simp] theorem endDecode_configured (s : State) : (endDecode s).configured = s.configured := rfl
@[simp] theorem endDecode_cfgRate (s : State) : (endDecode s).cfgRate = s.cfgRate := rfl
@[simp] theorem endDecode_cfgBaud (s : State) : (endDecode s).cfgBaud = s.cfgBaud := rfl
@[simp] theorem endDecode_cfgPol (s : State) : (endDecode s).cfgPol = s.cfgPol := rfl
@[simp] theorem endDecode_spb (s : State) : (endDecode s).spb = s.spb := rfl
@[simp] theorem endDecode_advBit (s : State) : (endDecode s).advBit = s.advBit := rfl
@[simp] theorem endDecode_advStart (s : State) : (endDecode s).advStart = s.advStart := rfl
@[simp] theorem endDecode_lookahead (s : State) : (endDecode s).lookahead = s.lookahead := rfl
@[simp] theorem endDecode_phase (s : State) : (endDecode s).phase = s.phase := rfl
@[simp] theorem endDecode_bitIndex (s : State) : (endDecode s).bitIndex = s.bitIndex := rfl
@[simp] theorem endDecode_accumulator (s : State) : (endDecode s).accumulator = s.accumulator := rfl
@[simp] theorem endDecode_activeTable (s : State) : (endDecode s).activeTable = s.activeTable := rfl
@[simp] theorem endDecode_cursor (s : State) : (endDecode s).cursor = s.cursor := rfl
@[simp] theorem endDecode_outCount (s : State) : (endDecode s).outCount = s.outCount := rfl
@[simp] theorem endDecode_n (s : State) : (endDecode s).n = s.n := rfl
@[simp] theorem endDecode_maxOut (s : State) : (endDecode s).maxOut = s.maxOut := rfl
@[simp] theorem endDecode_busy (s : State) : (endDecode s).busy = false := rfl
@[simp] theorem endDecode_win (s : State) : (endDecode s).win = s.win := rfl
@[simp] theorem endDecode_out (s : State) : (endDecode s).out = s.out := rfl
@[simp] theorem endDecode_rst (s : State) : (endDecode s).rst = s.rst := rfl
@[simp] theorem endDecode_cmd (s : State) : (endDecode s).cmd = none := rfl
@[simp] theorem endDecode_rsp (s : State) : (endDecode s).rsp = some (responseWords .ok (s.cursor.setWidth 64) (s.outCount.setWidth 64)) := rfl

/-! ### construct -/

@[simp] theorem construct_configured (s : State) : (construct s).configured = s.configured := rfl
@[simp] theorem construct_cfgRate (s : State) : (construct s).cfgRate = s.cfgRate := rfl
@[simp] theorem construct_cfgBaud (s : State) : (construct s).cfgBaud = s.cfgBaud := rfl
@[simp] theorem construct_cfgPol (s : State) : (construct s).cfgPol = s.cfgPol := rfl
@[simp] theorem construct_spb (s : State) : (construct s).spb = s.spb := rfl
@[simp] theorem construct_advBit (s : State) : (construct s).advBit = s.advBit := rfl
@[simp] theorem construct_advStart (s : State) : (construct s).advStart = s.advStart := rfl
@[simp] theorem construct_lookahead (s : State) : (construct s).lookahead = s.lookahead := rfl
@[simp] theorem construct_phase (s : State) : (construct s).phase = .awaitingStart := rfl
@[simp] theorem construct_bitIndex (s : State) : (construct s).bitIndex = 0 := rfl
@[simp] theorem construct_accumulator (s : State) : (construct s).accumulator = 0 := rfl
@[simp] theorem construct_activeTable (s : State) : (construct s).activeTable = .letters := rfl
@[simp] theorem construct_cursor (s : State) : (construct s).cursor = s.cursor := rfl
@[simp] theorem construct_outCount (s : State) : (construct s).outCount = s.outCount := rfl
@[simp] theorem construct_n (s : State) : (construct s).n = s.n := rfl
@[simp] theorem construct_maxOut (s : State) : (construct s).maxOut = s.maxOut := rfl
@[simp] theorem construct_busy (s : State) : (construct s).busy = s.busy := rfl
@[simp] theorem construct_win (s : State) : (construct s).win = s.win := rfl
@[simp] theorem construct_out (s : State) : (construct s).out = s.out := rfl
@[simp] theorem construct_rst (s : State) : (construct s).rst = s.rst := rfl
@[simp] theorem construct_cmd (s : State) : (construct s).cmd = s.cmd := rfl
@[simp] theorem construct_rsp (s : State) : (construct s).rsp = s.rsp := rfl

/-! ### setConfig -/

@[simp] theorem setConfig_configured (pol : Bool) (rate baud : Word) (s : State) : (setConfig pol rate baud s).configured = true := rfl
@[simp] theorem setConfig_cfgRate (pol : Bool) (rate baud : Word) (s : State) : (setConfig pol rate baud s).cfgRate = rate := rfl
@[simp] theorem setConfig_cfgBaud (pol : Bool) (rate baud : Word) (s : State) : (setConfig pol rate baud s).cfgBaud = baud := rfl
@[simp] theorem setConfig_cfgPol (pol : Bool) (rate baud : Word) (s : State) : (setConfig pol rate baud s).cfgPol = pol := rfl
@[simp] theorem setConfig_spb (pol : Bool) (rate baud : Word) (s : State) : (setConfig pol rate baud s).spb = spbOf rate baud := rfl
@[simp] theorem setConfig_advBit (pol : Bool) (rate baud : Word) (s : State) : (setConfig pol rate baud s).advBit = BitVec.ofNat Config.wIdx (advBitOf (spbOf rate baud)) := rfl
@[simp] theorem setConfig_advStart (pol : Bool) (rate baud : Word) (s : State) : (setConfig pol rate baud s).advStart = BitVec.ofNat Config.wIdx (advStartOf (spbOf rate baud)) := rfl
@[simp] theorem setConfig_lookahead (pol : Bool) (rate baud : Word) (s : State) : (setConfig pol rate baud s).lookahead = BitVec.ofNat Config.wIdx (lookaheadOf (spbOf rate baud)) := rfl
@[simp] theorem setConfig_phase (pol : Bool) (rate baud : Word) (s : State) : (setConfig pol rate baud s).phase = s.phase := rfl
@[simp] theorem setConfig_bitIndex (pol : Bool) (rate baud : Word) (s : State) : (setConfig pol rate baud s).bitIndex = s.bitIndex := rfl
@[simp] theorem setConfig_accumulator (pol : Bool) (rate baud : Word) (s : State) : (setConfig pol rate baud s).accumulator = s.accumulator := rfl
@[simp] theorem setConfig_activeTable (pol : Bool) (rate baud : Word) (s : State) : (setConfig pol rate baud s).activeTable = s.activeTable := rfl
@[simp] theorem setConfig_cursor (pol : Bool) (rate baud : Word) (s : State) : (setConfig pol rate baud s).cursor = s.cursor := rfl
@[simp] theorem setConfig_outCount (pol : Bool) (rate baud : Word) (s : State) : (setConfig pol rate baud s).outCount = s.outCount := rfl
@[simp] theorem setConfig_n (pol : Bool) (rate baud : Word) (s : State) : (setConfig pol rate baud s).n = s.n := rfl
@[simp] theorem setConfig_maxOut (pol : Bool) (rate baud : Word) (s : State) : (setConfig pol rate baud s).maxOut = s.maxOut := rfl
@[simp] theorem setConfig_busy (pol : Bool) (rate baud : Word) (s : State) : (setConfig pol rate baud s).busy = s.busy := rfl
@[simp] theorem setConfig_win (pol : Bool) (rate baud : Word) (s : State) : (setConfig pol rate baud s).win = s.win := rfl
@[simp] theorem setConfig_out (pol : Bool) (rate baud : Word) (s : State) : (setConfig pol rate baud s).out = s.out := rfl
@[simp] theorem setConfig_rst (pol : Bool) (rate baud : Word) (s : State) : (setConfig pol rate baud s).rst = s.rst := rfl
@[simp] theorem setConfig_cmd (pol : Bool) (rate baud : Word) (s : State) : (setConfig pol rate baud s).cmd = s.cmd := rfl
@[simp] theorem setConfig_rsp (pol : Bool) (rate baud : Word) (s : State) : (setConfig pol rate baud s).rsp = s.rsp := rfl

/-! ### nextBit -/

@[simp] theorem nextBit_configured (s : State) : (nextBit s).configured = s.configured := rfl
@[simp] theorem nextBit_cfgRate (s : State) : (nextBit s).cfgRate = s.cfgRate := rfl
@[simp] theorem nextBit_cfgBaud (s : State) : (nextBit s).cfgBaud = s.cfgBaud := rfl
@[simp] theorem nextBit_cfgPol (s : State) : (nextBit s).cfgPol = s.cfgPol := rfl
@[simp] theorem nextBit_spb (s : State) : (nextBit s).spb = s.spb := rfl
@[simp] theorem nextBit_advBit (s : State) : (nextBit s).advBit = s.advBit := rfl
@[simp] theorem nextBit_advStart (s : State) : (nextBit s).advStart = s.advStart := rfl
@[simp] theorem nextBit_lookahead (s : State) : (nextBit s).lookahead = s.lookahead := rfl
@[simp] theorem nextBit_phase (s : State) : (nextBit s).phase = s.phase := rfl
@[simp] theorem nextBit_bitIndex (s : State) : (nextBit s).bitIndex = s.bitIndex + 1 := rfl
@[simp] theorem nextBit_accumulator (s : State) : (nextBit s).accumulator = s.accumulator := rfl
@[simp] theorem nextBit_activeTable (s : State) : (nextBit s).activeTable = s.activeTable := rfl
@[simp] theorem nextBit_cursor (s : State) : (nextBit s).cursor = s.cursor + s.advBit := rfl
@[simp] theorem nextBit_outCount (s : State) : (nextBit s).outCount = s.outCount := rfl
@[simp] theorem nextBit_n (s : State) : (nextBit s).n = s.n := rfl
@[simp] theorem nextBit_maxOut (s : State) : (nextBit s).maxOut = s.maxOut := rfl
@[simp] theorem nextBit_busy (s : State) : (nextBit s).busy = s.busy := rfl
@[simp] theorem nextBit_win (s : State) : (nextBit s).win = s.win := rfl
@[simp] theorem nextBit_out (s : State) : (nextBit s).out = s.out := rfl
@[simp] theorem nextBit_rst (s : State) : (nextBit s).rst = s.rst := rfl
@[simp] theorem nextBit_cmd (s : State) : (nextBit s).cmd = s.cmd := rfl
@[simp] theorem nextBit_rsp (s : State) : (nextBit s).rsp = s.rsp := rfl

/-! ### leaveStop -/

@[simp] theorem leaveStop_configured (s : State) : (leaveStop s).configured = s.configured := rfl
@[simp] theorem leaveStop_cfgRate (s : State) : (leaveStop s).cfgRate = s.cfgRate := rfl
@[simp] theorem leaveStop_cfgBaud (s : State) : (leaveStop s).cfgBaud = s.cfgBaud := rfl
@[simp] theorem leaveStop_cfgPol (s : State) : (leaveStop s).cfgPol = s.cfgPol := rfl
@[simp] theorem leaveStop_spb (s : State) : (leaveStop s).spb = s.spb := rfl
@[simp] theorem leaveStop_advBit (s : State) : (leaveStop s).advBit = s.advBit := rfl
@[simp] theorem leaveStop_advStart (s : State) : (leaveStop s).advStart = s.advStart := rfl
@[simp] theorem leaveStop_lookahead (s : State) : (leaveStop s).lookahead = s.lookahead := rfl
@[simp] theorem leaveStop_phase (s : State) : (leaveStop s).phase = .awaitingStart := rfl
@[simp] theorem leaveStop_bitIndex (s : State) : (leaveStop s).bitIndex = s.bitIndex := rfl
@[simp] theorem leaveStop_accumulator (s : State) : (leaveStop s).accumulator = 0 := rfl
@[simp] theorem leaveStop_activeTable (s : State) : (leaveStop s).activeTable = s.activeTable := rfl
@[simp] theorem leaveStop_cursor (s : State) : (leaveStop s).cursor = s.cursor := rfl
@[simp] theorem leaveStop_outCount (s : State) : (leaveStop s).outCount = s.outCount := rfl
@[simp] theorem leaveStop_n (s : State) : (leaveStop s).n = s.n := rfl
@[simp] theorem leaveStop_maxOut (s : State) : (leaveStop s).maxOut = s.maxOut := rfl
@[simp] theorem leaveStop_busy (s : State) : (leaveStop s).busy = s.busy := rfl
@[simp] theorem leaveStop_win (s : State) : (leaveStop s).win = s.win := rfl
@[simp] theorem leaveStop_out (s : State) : (leaveStop s).out = s.out := rfl
@[simp] theorem leaveStop_rst (s : State) : (leaveStop s).rst = s.rst := rfl
@[simp] theorem leaveStop_cmd (s : State) : (leaveStop s).cmd = s.cmd := rfl
@[simp] theorem leaveStop_rsp (s : State) : (leaveStop s).rsp = s.rsp := rfl

/-! ### takeReset -/

@[simp] theorem takeReset_configured (s : State) : (takeReset s).configured = false := rfl
@[simp] theorem takeReset_cfgRate (s : State) : (takeReset s).cfgRate = 0 := rfl
@[simp] theorem takeReset_cfgBaud (s : State) : (takeReset s).cfgBaud = 0 := rfl
@[simp] theorem takeReset_cfgPol (s : State) : (takeReset s).cfgPol = false := rfl
@[simp] theorem takeReset_spb (s : State) : (takeReset s).spb = 0 := rfl
@[simp] theorem takeReset_advBit (s : State) : (takeReset s).advBit = 0 := rfl
@[simp] theorem takeReset_advStart (s : State) : (takeReset s).advStart = 0 := rfl
@[simp] theorem takeReset_lookahead (s : State) : (takeReset s).lookahead = 0 := rfl
@[simp] theorem takeReset_phase (s : State) : (takeReset s).phase = .awaitingStart := rfl
@[simp] theorem takeReset_bitIndex (s : State) : (takeReset s).bitIndex = 0 := rfl
@[simp] theorem takeReset_accumulator (s : State) : (takeReset s).accumulator = 0 := rfl
@[simp] theorem takeReset_activeTable (s : State) : (takeReset s).activeTable = .letters := rfl
@[simp] theorem takeReset_cursor (s : State) : (takeReset s).cursor = 0 := rfl
@[simp] theorem takeReset_outCount (s : State) : (takeReset s).outCount = 0 := rfl
@[simp] theorem takeReset_n (s : State) : (takeReset s).n = 0 := rfl
@[simp] theorem takeReset_maxOut (s : State) : (takeReset s).maxOut = 0 := rfl
@[simp] theorem takeReset_busy (s : State) : (takeReset s).busy = false := rfl
@[simp] theorem takeReset_win (s : State) : (takeReset s).win = s.win := rfl
@[simp] theorem takeReset_out (s : State) : (takeReset s).out = s.out := rfl
@[simp] theorem takeReset_rst (s : State) : (takeReset s).rst = false := rfl
@[simp] theorem takeReset_cmd (s : State) : (takeReset s).cmd = none := rfl
@[simp] theorem takeReset_rsp (s : State) : (takeReset s).rsp = none := rfl

/-! ### State.reset -/

@[simp] theorem reset_configured : State.reset.configured = false := rfl
@[simp] theorem reset_cfgRate : State.reset.cfgRate = 0 := rfl
@[simp] theorem reset_cfgBaud : State.reset.cfgBaud = 0 := rfl
@[simp] theorem reset_cfgPol : State.reset.cfgPol = false := rfl
@[simp] theorem reset_spb : State.reset.spb = 0 := rfl
@[simp] theorem reset_advBit : State.reset.advBit = 0 := rfl
@[simp] theorem reset_advStart : State.reset.advStart = 0 := rfl
@[simp] theorem reset_lookahead : State.reset.lookahead = 0 := rfl
@[simp] theorem reset_phase : State.reset.phase = .awaitingStart := rfl
@[simp] theorem reset_bitIndex : State.reset.bitIndex = 0 := rfl
@[simp] theorem reset_accumulator : State.reset.accumulator = 0 := rfl
@[simp] theorem reset_activeTable : State.reset.activeTable = .letters := rfl
@[simp] theorem reset_cursor : State.reset.cursor = 0 := rfl
@[simp] theorem reset_outCount : State.reset.outCount = 0 := rfl
@[simp] theorem reset_n : State.reset.n = 0 := rfl
@[simp] theorem reset_maxOut : State.reset.maxOut = 0 := rfl
@[simp] theorem reset_busy : State.reset.busy = false := rfl
@[simp] theorem reset_win : State.reset.win = [] := rfl
@[simp] theorem reset_out : State.reset.out = [] := rfl
@[simp] theorem reset_rst : State.reset.rst = false := rfl
@[simp] theorem reset_cmd : State.reset.cmd = none := rfl
@[simp] theorem reset_rsp : State.reset.rsp = none := rfl

end Sys2Proof.Machine
end

