-- ==== Sys2Proof/Laws/Cells.lean ====
section
/-! SUPPORT. The two memories: a read after a write, and that every memory operation keeps the canonical form. -/

namespace Sys2Proof.Machine

variable {α : Type}

/-! ### Rising lists -/

/-- Every listed index is above `j`. -/
def cellsAbove (j : Nat) (m : List (Nat × α)) : Prop := ∀ c ∈ m, j < c.1

theorem cellsRising_cons (a : Nat × α) (m : List (Nat × α)) :
    cellsRising (a :: m) = true ↔ cellsAbove a.1 m ∧ cellsRising m = true := by
  induction m generalizing a with
  | nil => simp [cellsRising, cellsAbove]
  | cons b m ih =>
    simp only [cellsRising, Bool.and_eq_true, decide_eq_true_eq, ih b, cellsAbove, List.mem_cons,
      forall_eq_or_imp]
    constructor
    · rintro ⟨h, hb, hm⟩
      exact ⟨⟨h, fun c hc => Nat.lt_trans h (hb c hc)⟩, hb, hm⟩
    · rintro ⟨⟨h, -⟩, hb, hm⟩
      exact ⟨h, hb, hm⟩

theorem cellsAbove_write {j i : Nat} {m : List (Nat × α)} (v : α) (hj : j < i) (h : cellsAbove j m) :
    cellsAbove j (cellsWrite m i v) := by
  induction m with
  | nil => simp [cellsWrite, cellsAbove, hj]
  | cons c m ih =>
    simp only [cellsAbove, List.mem_cons, forall_eq_or_imp] at h
    have ih' := ih h.2
    simp only [cellsWrite]
    split
    · simpa [cellsAbove, hj] using h
    · split
      · simpa [cellsAbove, hj] using h.2
      · simpa [cellsAbove] using ⟨h.1, fun a b hab => ih' (a, b) hab⟩

theorem cellsAbove_erase {j : Nat} {m : List (Nat × α)} (i : Nat) (h : cellsAbove j m) :
    cellsAbove j (cellsErase m i) := by
  induction m with
  | nil => simpa [cellsErase] using h
  | cons c m ih =>
    simp only [cellsAbove, List.mem_cons, forall_eq_or_imp] at h
    simp only [cellsErase]
    split
    · exact h.2
    · have ih' := ih h.2
      simpa [cellsAbove] using ⟨h.1, fun a b hab => ih' (a, b) hab⟩

theorem cellsRising_write (m : List (Nat × α)) (i : Nat) (v : α) (h : cellsRising m = true) :
    cellsRising (cellsWrite m i v) = true := by
  induction m with
  | nil => rfl
  | cons c m ih =>
    obtain ⟨hc, hm⟩ := (cellsRising_cons c m).1 h
    simp only [cellsWrite]
    split
    · rename_i hlt
      refine (cellsRising_cons _ _).2 ⟨?_, h⟩
      simp only [cellsAbove, List.mem_cons, forall_eq_or_imp]
      exact ⟨hlt, fun a ha => Nat.lt_trans hlt (hc a ha)⟩
    · split
      · rename_i heq
        exact (cellsRising_cons _ _).2 ⟨by simpa [heq] using hc, hm⟩
      · exact (cellsRising_cons _ _).2 ⟨cellsAbove_write v (by omega) hc, ih hm⟩

theorem cellsRising_erase (m : List (Nat × α)) (i : Nat) (h : cellsRising m = true) :
    cellsRising (cellsErase m i) = true := by
  induction m with
  | nil => rfl
  | cons c m ih =>
    obtain ⟨hc, hm⟩ := (cellsRising_cons c m).1 h
    simp only [cellsErase]
    split
    · exact hm
    · exact (cellsRising_cons _ _).2 ⟨cellsAbove_erase i hc, ih hm⟩

/-! ### Reading after a write -/

theorem cellsRead_write_same (m : List (Nat × α)) (i : Nat) (v : α) : cellsRead (cellsWrite m i v) i = some v := by
  induction m with
  | nil => simp [cellsWrite, cellsRead]
  | cons c m ih =>
    simp only [cellsWrite]
    split
    · simp [cellsRead]
    · split
      · simp [cellsRead]
      · simp only [cellsRead]
        rw [if_neg (by omega)]
        exact ih

theorem cellsRead_write_other (m : List (Nat × α)) {i k : Nat} (v : α) (h : k ≠ i) :
    cellsRead (cellsWrite m i v) k = cellsRead m k := by
  induction m with
  | nil => simp [cellsWrite, cellsRead, h.symm]
  | cons c m ih =>
    simp only [cellsWrite]
    split
    · simp [cellsRead, h.symm]
    · split
      · rename_i heq
        simp [cellsRead, h.symm, ← heq]
      · simp only [cellsRead, ih]

theorem cellsRead_above {j : Nat} {m : List (Nat × α)} (h : cellsAbove j m) : cellsRead m j = none := by
  induction m with
  | nil => rfl
  | cons c m ih =>
    simp only [cellsAbove, List.mem_cons, forall_eq_or_imp] at h
    simp only [cellsRead]
    rw [if_neg (by omega)]
    exact ih h.2

theorem cellsRead_erase_same (m : List (Nat × α)) (i : Nat) (h : cellsRising m = true) :
    cellsRead (cellsErase m i) i = none := by
  induction m with
  | nil => rfl
  | cons c m ih =>
    obtain ⟨hc, hm⟩ := (cellsRising_cons c m).1 h
    simp only [cellsErase]
    split
    · rename_i heq
      exact cellsRead_above (heq ▸ hc)
    · rename_i hne
      simp only [cellsRead, hne, if_false]
      exact ih hm

theorem cellsRead_erase_other (m : List (Nat × α)) {i k : Nat} (h : k ≠ i) :
    cellsRead (cellsErase m i) k = cellsRead m k := by
  induction m with
  | nil => rfl
  | cons c m ih =>
    simp only [cellsErase]
    split
    · rename_i heq
      simp only [cellsRead]
      rw [if_neg (by omega)]
    · simp only [cellsRead, ih]

/-! ### The output buffer -/

@[simp] theorem Memory.read_write_same (m : Memory) (i : Nat) (b : Byte) : Memory.read (Memory.write m i b) i = some b :=
  cellsRead_write_same m i b

theorem Memory.read_write_other (m : Memory) {i k : Nat} (b : Byte) (h : k ≠ i) :
    Memory.read (Memory.write m i b) k = Memory.read m k :=
  cellsRead_write_other m b h

/-- The output write keeps the canonical form. -/
theorem Memory.wf_write (m : Memory) (i : Nat) (b : Byte) (h : Memory.wf m = true) : Memory.wf (Memory.write m i b) = true :=
  cellsRising_write m i b h

/-! ### The window -/

theorem Window.wf_rising {m : Window} (h : Window.wf m = true) : cellsRising m = true := by
  simp only [Window.wf, Bool.and_eq_true] at h
  exact h.1

theorem mem_cellsWrite {m : List (Nat × α)} {i : Nat} {v : α} {c : Nat × α} (h : c ∈ cellsWrite m i v) :
    c = (i, v) ∨ c ∈ m := by
  induction m with
  | nil => simpa [cellsWrite] using h
  | cons d m ih =>
    simp only [cellsWrite] at h
    split at h
    · simpa using h
    · split at h
      · rcases List.mem_cons.1 h with h | h
        · exact .inl h
        · exact .inr (List.mem_cons_of_mem _ h)
      · rcases List.mem_cons.1 h with h | h
        · exact .inr (by simp [h])
        · exact (ih h).imp id (List.mem_cons_of_mem _)

theorem mem_cellsErase {m : List (Nat × α)} {i : Nat} {c : Nat × α} (h : c ∈ cellsErase m i) : c ∈ m := by
  induction m with
  | nil => simp [cellsErase] at h
  | cons d m ih =>
    simp only [cellsErase] at h
    split at h
    · exact List.mem_cons_of_mem _ h
    · rcases List.mem_cons.1 h with h | h
      · simp [h]
      · exact List.mem_cons_of_mem _ (ih h)

/-- The window write keeps the canonical form. -/
theorem Window.wf_write (m : Window) (i : Nat) (w : Word) (h : Window.wf m = true) : Window.wf (Window.write m i w) = true := by
  have hr := Window.wf_rising h
  simp only [Window.wf, Bool.and_eq_true, List.all_eq_true, bne_iff_ne] at h ⊢
  simp only [Window.write]
  split
  · exact ⟨cellsRising_erase m i hr, fun c hc => h.2 c (mem_cellsErase hc)⟩
  · rename_i hw
    refine ⟨cellsRising_write m i w hr, fun c hc => ?_⟩
    rcases mem_cellsWrite hc with rfl | hc
    · exact hw
    · exact h.2 c hc

theorem Window.read_write_same (m : Window) (i : Nat) (w : Word) (h : Window.wf m = true) :
    Window.read (Window.write m i w) i = w := by
  simp only [Window.read, Window.write]
  split
  · rename_i hw
    rw [cellsRead_erase_same m i (Window.wf_rising h), hw]
    rfl
  · rw [cellsRead_write_same]
    rfl

theorem Window.read_write_other (m : Window) {i k : Nat} (w : Word) (h : k ≠ i) :
    Window.read (Window.write m i w) k = Window.read m k := by
  simp only [Window.read, Window.write]
  split
  · rw [cellsRead_erase_other m h]
  · rw [cellsRead_write_other m w h]

/-- Presenting a whole window keeps the canonical form. -/
theorem windowFrom_wf (m : Window) (i : Nat) (ws : List Word) (h : Window.wf m = true) : Window.wf (windowFrom m i ws) = true := by
  induction ws generalizing m i with
  | nil => exact h
  | cons w ws ih => exact ih _ _ (Window.wf_write m i w h)

/-- The memories of the state after reset have the canonical form. -/
theorem reset_memory_wf : Memory.wf State.reset.out = true ∧ Window.wf State.reset.win = true := ⟨rfl, rfl⟩

end Sys2Proof.Machine
end

