-- ==== Sys2Proof/Laws/Ops.lean ====
section
/-! SUPPORT. For each shared operation, what it answers: once as "these conditions give this answer", once as "this answer
came from these conditions". Later proofs cite these and do not unfold the operation. -/

namespace Sys2Proof.Machine

/-! ### memRead and the sample -/

theorem memRead_of_lt {s : State} {i : Nat} (h : i < s.n.toNat) : memRead s i = some (Window.read s.win i) := if_pos h

theorem memRead_eq_some {s : State} {i : Nat} {w : Word} (h : memRead s i = some w) :
    i < s.n.toNat ∧ w = Window.read s.win i := by
  unfold memRead at h
  split at h
  · exact ⟨‹_›, (Option.some.inj h).symm⟩
  · cases h

theorem sample_of_lt {s : State} (h : s.cursor.toNat < s.n.toNat) : s.sample = some (Window.read s.win s.cursor.toNat) :=
  memRead_of_lt h

theorem sample_eq_some {s : State} {w : Word} (h : s.sample = some w) :
    s.cursor.toNat < s.n.toNat ∧ w = Window.read s.win s.cursor.toNat := memRead_eq_some h

/-! ### emit -/

/-- The state after one byte is appended. -/
def appended (b : Byte) (s : State) : State :=
  { s with
    out := Memory.write s.out s.outCount.toNat b
    outCount := s.outCount + 1 }

theorem emit_of_lt {s : State} (b : Byte) (h : s.outCount.toNat < s.maxOut.toNat) : emit b s = .next (appended b s) := by
  simp [emit, memWrite, h, appended]

theorem emit_of_not_lt {s : State} (b : Byte) (h : ¬ s.outCount.toNat < s.maxOut.toNat) : emit b s = .refused .outputIndex := by
  simp [emit, memWrite, h]

theorem emit_next {s t : State} {b : Byte} (h : emit b s = .next t) :
    s.outCount.toNat < s.maxOut.toNat ∧ t = appended b s := by
  by_cases hlt : s.outCount.toNat < s.maxOut.toNat
  · rw [emit_of_lt b hlt] at h
    cases h
    exact ⟨hlt, rfl⟩
  · rw [emit_of_not_lt b hlt] at h
    cases h

/-! ### sampleStep -/

theorem sampleStep_of {s : State} {ph : Phase} {mark : Bool} {w : Word} (hr : s.Running) (hp : s.phase = ph)
    (hw : s.sample = some w) (hm : s.isMark w = mark) (effect : Result) : sampleStep ph mark s effect = effect := by
  simp [sampleStep, hr, hp, hw, hm]

theorem sampleStep_next {s t : State} {ph : Phase} {mark : Bool} {effect : Result}
    (h : sampleStep ph mark s effect = .next t) :
    s.Running ∧ s.phase = ph ∧ (∃ w, s.sample = some w ∧ s.isMark w = mark) ∧ effect = .next t := by
  unfold sampleStep at h
  split at h
  · rename_i hr
    split at h
    · rename_i hp
      split at h
      · cases h
      · rename_i w hw
        split at h
        · exact ⟨hr, hp, ⟨w, hw, ‹_›⟩, h⟩
        · cases h
    · cases h
  · cases h

/-! ### whileIdle -/

theorem whileIdle_of {s : State} (h : s.busy = false) (effect : Result) : whileIdle s effect = effect := by
  simp [whileIdle, h]

theorem whileIdle_next {s t : State} {effect : Result} (h : whileIdle s effect = .next t) :
    s.busy = false ∧ effect = .next t := by
  unfold whileIdle at h
  split at h
  · cases h
  · rename_i hb
    exact ⟨Bool.eq_false_iff.2 hb, h⟩

/-! ### The mapper -/

/-- The mapper in one form: it selects the alphabet in force after the code, then appends that alphabet's entry. -/
theorem mapCode_eq_emit (code : Code) (s : State) :
    mapCode code s = emit (mappedByte code s.activeTable) { s with activeTable := tableAfter code s.activeTable } := by
  unfold mapCode mappedByte tableAfter
  split
  · rename_i h
    rw [h]
    rfl
  · split
    · rename_i h
      rw [h]
      rfl
    · rfl

theorem mapCode_next {s t : State} {code : Code} (h : mapCode code s = .next t) :
    s.outCount.toNat < s.maxOut.toNat ∧
    t = appended (mappedByte code s.activeTable) { s with activeTable := tableAfter code s.activeTable } := by
  rw [mapCode_eq_emit] at h
  exact emit_next h

theorem mapCode_of_lt {s : State} (code : Code) (h : s.outCount.toNat < s.maxOut.toNat) :
    mapCode code s = .next (appended (mappedByte code s.activeTable) { s with activeTable := tableAfter code s.activeTable }) := by
  rw [mapCode_eq_emit]
  exact emit_of_lt _ h

/-- The mapper runs the operation that the mapper selector names. -/
theorem mapCode_eq_exec (code : Code) (s : State) : mapCode code s = exec (decodeMapper code) s := by
  unfold mapCode decodeMapper
  split
  · rfl
  · split <;> rfl

/-! ### The selector -/

theorem selector_dataTaken {s : State} (hp : s.phase = .framing) (hd : s.DataTaken) : s.selector = some 0b0110#4 := by
  unfold State.selector
  rw [if_pos ⟨hp, hd⟩, hp]
  rfl

theorem selector_sample {s : State} {w : Word} (h : ¬ (s.phase = .framing ∧ s.DataTaken)) (hw : s.sample = some w) :
    s.selector = some (s.phase.bits ++ 0#1 ++ BitVec.ofBool (s.isMark w)) := by
  unfold State.selector
  rw [if_neg h, hw]

theorem selector_none {s : State} (h : s.selector = none) :
    ¬ (s.phase = .framing ∧ s.DataTaken) ∧ s.sample = none := by
  unfold State.selector at h
  split at h
  · cases h
  · split at h
    · cases h
    · exact ⟨‹_›, ‹_›⟩

end Sys2Proof.Machine
end

