-- ==== Sys2Proof/Laws/Step.lean ====
section
/-! SUPPORT. What one instruction and one step can do, as inversion lemmas: if it answers a next state, one of these cases
holds. The invariants are derived from these. -/

namespace Sys2Proof.Machine

/-- No answer is a fault (60_exceptions.md rule R214). -/
theorem noFault (r : Result) : NoFault r := fun f => nomatch f

/-! ### One instruction -/

theorem execStartHit_next {s t : State} (h : execStartHit s = .next t) :
    s.Running ∧ s.phase = .awaitingStart ∧ (∃ w, s.sample = some w ∧ s.isMark w = false) ∧
    t = { s with cursor := s.cursor + s.advStart, bitIndex := 0, accumulator := 0, phase := .framing } := by
  obtain ⟨hr, hp, hw, he⟩ := sampleStep_next h
  exact ⟨hr, hp, hw, by cases he; rfl⟩

theorem execStartMiss_next {s t : State} (h : execStartMiss s = .next t) :
    s.Running ∧ s.phase = .awaitingStart ∧ (∃ w, s.sample = some w ∧ s.isMark w = true) ∧
    t = { s with cursor := s.cursor + 1 } := by
  obtain ⟨hr, hp, hw, he⟩ := sampleStep_next h
  exact ⟨hr, hp, hw, by cases he; rfl⟩

theorem execDataSpace_next {s t : State} (h : execDataSpace s = .next t) :
    s.Running ∧ s.phase = .framing ∧ s.bitIndex.val ≤ 4 ∧ (∃ w, s.sample = some w ∧ s.isMark w = false) ∧ t = nextBit s := by
  obtain ⟨hr, hp, hw, he⟩ := sampleStep_next h
  split at he
  · cases he
  · exact ⟨hr, hp, by omega, hw, by cases he; rfl⟩

theorem execDataMark_next {s t : State} (h : execDataMark s = .next t) :
    s.Running ∧ s.phase = .framing ∧ s.bitIndex.val ≤ 4 ∧ (∃ w, s.sample = some w ∧ s.isMark w = true) ∧
    t = nextBit { s with accumulator := s.accumulator ||| (1#5 <<< s.bitIndex.val) } := by
  obtain ⟨hr, hp, hw, he⟩ := sampleStep_next h
  split at he
  · cases he
  · exact ⟨hr, hp, by omega, hw, by cases he; rfl⟩

theorem execFrameComplete_next {s t : State} (h : execFrameComplete s = .next t) :
    s.Running ∧ s.phase = .framing ∧ s.bitIndex = 5 ∧ t = { s with phase := .awaitingStop } := by
  unfold execFrameComplete at h
  split at h
  · rename_i hr
    split at h
    · rename_i hp
      cases h
      exact ⟨hr, hp.1, by have := hp.2; have := s.bitIndex.isLt; omega, rfl⟩
    · cases h
  · cases h

theorem execStopFail_next {s t : State} (h : execStopFail s = .next t) :
    s.Running ∧ s.phase = .awaitingStop ∧ (∃ w, s.sample = some w ∧ s.isMark w = false) ∧ t = leaveStop s := by
  obtain ⟨hr, hp, hw, he⟩ := sampleStep_next h
  exact ⟨hr, hp, hw, by cases he; rfl⟩

/-- The state after STOP_MATCH: the alphabet in force after the code, one byte appended, the frame left. -/
def stopMatched (s : State) : State :=
  leaveStop (appended (mappedByte s.accumulator s.activeTable)
    { s with activeTable := tableAfter s.accumulator s.activeTable })

theorem execStopMatch_next {s t : State} (h : execStopMatch s = .next t) :
    s.Running ∧ s.phase = .awaitingStop ∧ (∃ w, s.sample = some w ∧ s.isMark w = true) ∧ t = stopMatched s := by
  obtain ⟨hr, hp, hw, he⟩ := sampleStep_next h
  refine ⟨hr, hp, hw, ?_⟩
  rw [mapCode_of_lt _ hr.2.1] at he
  cases he
  rfl

theorem execConfigure_next {s t : State} {pol : Bool} {rate baud : Word} (h : execConfigure pol rate baud s = .next t) :
    s.busy = false ∧
    ((invalidRates rate baud = true ∧ t = raise .invalidConfig s) ∨
     (invalidRates rate baud = false ∧ admitted rate baud = true ∧
      t = respond .ok 0 0 (construct (setConfig pol rate baud s)))) := by
  obtain ⟨hb, he⟩ := whileIdle_next h
  refine ⟨hb, ?_⟩
  split at he
  · cases he
    exact .inl ⟨‹_›, rfl⟩
  · rename_i hi
    split at he
    · cases he
      exact .inr ⟨Bool.eq_false_iff.2 hi, ‹_›, rfl⟩
    · cases he

theorem execDecode_next {s t : State} {n m : Index} (h : execDecode n m s = .next t) :
    s.busy = false ∧
    ((s.configured = true ∧ t = startDecode n m s) ∨ (s.configured = false ∧ t = raise .notConfigured s)) := by
  obtain ⟨hb, he⟩ := whileIdle_next h
  refine ⟨hb, ?_⟩
  split at he
  · cases he
    exact .inl ⟨‹_›, rfl⟩
  · rename_i hc
    cases he
    exact .inr ⟨Bool.eq_false_iff.2 hc, rfl⟩

theorem execReqin_next {s t : State} {d : HostInt} (h : execReqin d s = .next t) :
    s.busy = false ∧
    ((s.configured = true ∧ ∃ v, reqinResult s.cfgRate s.cfgBaud d = some v ∧ t = respond .ok (v.signExtend 64) 0 s) ∨
     (s.configured = false ∧ t = raise .notConfigured s)) := by
  obtain ⟨hb, he⟩ := whileIdle_next h
  refine ⟨hb, ?_⟩
  split at he
  · split at he
    · cases he
      exact .inl ⟨‹_›, _, ‹_›, rfl⟩
    · cases he
  · rename_i hc
    cases he
    exact .inr ⟨Bool.eq_false_iff.2 hc, rfl⟩

theorem execReserved_next {s t : State} (h : execReserved s = .next t) :
    s.busy = false ∧ t = raise .reservedCommand s := by
  obtain ⟨hb, he⟩ := whileIdle_next h
  cases he
  exact ⟨hb, rfl⟩

/-! ### Fetch -/

/-- The seven step kinds. -/
def Fetch.IsStep (i : Instr) : Prop :=
  i = .startHit ∨ i = .startMiss ∨ i = .dataSpace ∨ i = .dataMark ∨ i = .frameComplete ∨ i = .stopFail ∨ i = .stopMatch

/-- Inside a DECODE whose guard holds, the selector of a readable sample names a step kind. -/
theorem fetch_running {s : State} (hr : s.rst = false) (hb : s.busy = true) (ha : s.StepAllowed)
    (hc : s.cursor.toNat < s.n.toNat) :
    fetch s = .run
      (match s.phase with
       | .awaitingStart => if s.isMark (Window.read s.win s.cursor.toNat) then .startMiss else .startHit
       | .framing =>
         if s.bitIndex = 5 then .frameComplete
         else if s.isMark (Window.read s.win s.cursor.toNat) then .dataMark else .dataSpace
       | .awaitingStop => if s.isMark (Window.read s.win s.cursor.toNat) then .stopMatch else .stopFail) := by
  have hw := sample_of_lt hc
  have hf : fetch s =
      match s.selector with
      | none => .outsideWindow
      | some sel =>
        match decodeSelector sel with
        | some i => .run i
        | none => .reservedSelector :=
    (if_neg (by rw [hr]; exact Bool.false_ne_true)).trans ((if_pos hb).trans (if_pos ha))
  rw [hf]
  by_cases hd : s.phase = .framing ∧ s.DataTaken
  · have h5 : s.bitIndex = 5 := by have := hd.2; have := s.bitIndex.isLt; omega
    rw [selector_dataTaken hd.1 hd.2, hd.1]
    simp [h5, decodeSelector]
  · rw [selector_sample hd hw]
    cases hp : s.phase <;> cases hm : s.isMark (Window.read s.win s.cursor.toNat) <;>
      simp only [Phase.bits, BitVec.ofBool]
    case framing.false | framing.true =>
      have h5 : s.bitIndex ≠ 5 := fun h5 => hd ⟨hp, by simp [State.DataTaken, h5]⟩
      simp [h5, decodeSelector]
    all_goals rfl

/-- Where a command waits at an idle core, the next transition is that command. -/
theorem fetch_command {s : State} {c : Command} (hr : s.rst = false) (hb : s.busy = false) (hc : s.cmd = some c) :
    fetch s = .run (decodeCommand c.w0 c.w1 c.w2) := by
  simp [fetch, hr, hb, hc]

theorem step_run {s : State} {i : Instr} (h : fetch s = .run i) : step s = exec i s := by
  simp [step, h]

/-! ### One step -/

/-- Everything one step can do. -/
theorem step_next {s t : State} (h : step s = .next t) :
    (fetch s = .resetEvent ∧ t = takeReset s) ∨
    (∃ i, fetch s = .run i ∧ exec i s = .next t) ∨
    (fetch s = .loopEnd ∧ t = endDecode s) ∨
    (fetch s = .idle ∧ t = s) := by
  unfold step at h
  split at h
  · exact .inl ⟨‹_›, by cases h; rfl⟩
  · exact .inr (.inl ⟨_, ‹_›, h⟩)
  · exact .inr (.inr (.inl ⟨‹_›, by cases h; rfl⟩))
  · exact .inr (.inr (.inr ⟨‹_›, by cases h; rfl⟩))
  · cases h
  · cases h

/-- Why `fetch` answers what it answers. -/
theorem fetch_cases (s : State) :
    (s.rst = true ∧ fetch s = .resetEvent) ∨
    (s.rst = false ∧ s.busy = true ∧ s.StepAllowed ∧ s.selector = none ∧ fetch s = .outsideWindow) ∨
    (s.rst = false ∧ s.busy = true ∧ s.StepAllowed ∧
      ∃ sel, s.selector = some sel ∧
        ((∃ i, decodeSelector sel = some i ∧ fetch s = .run i) ∨
         (decodeSelector sel = none ∧ fetch s = .reservedSelector))) ∨
    (s.rst = false ∧ s.busy = true ∧ ¬ s.StepAllowed ∧ fetch s = .loopEnd) ∨
    (s.rst = false ∧ s.busy = false ∧ s.cmd = none ∧ fetch s = .idle) ∨
    (s.rst = false ∧ s.busy = false ∧ ∃ c, s.cmd = some c ∧ fetch s = .run (decodeCommand c.w0 c.w1 c.w2)) := by
  unfold fetch
  cases hr : s.rst
  · cases hb : s.busy
    · cases hc : s.cmd <;> simp
    · by_cases ha : s.StepAllowed
      · rw [if_pos ha]
        cases hs : s.selector with
        | none => exact .inr (.inl ⟨rfl, rfl, ha, rfl, rfl⟩)
        | some sel =>
          refine .inr (.inr (.inl ⟨rfl, rfl, ha, sel, rfl, ?_⟩))
          cases hd : decodeSelector sel <;> simp [hd]
      · rw [if_neg ha]
        exact .inr (.inr (.inr (.inl ⟨rfl, rfl, ha, rfl⟩)))
  · simp

end Sys2Proof.Machine
end

