-- ==== Sys2Proof/Laws/Float64.lean ====
section
/-! SUPPORT. The rounding of binary64: it is monotone, and it gives back a number that is already representable. -/

namespace Sys2Proof.Machine

/-! ### Rounding to a whole number -/

theorem roundHalfEven_le (n d : Nat) : roundHalfEven n d ≤ n / d + 1 := by
  unfold roundHalfEven
  dsimp only
  split <;> omega

theorem le_roundHalfEven (n d : Nat) : n / d ≤ roundHalfEven n d := by
  unfold roundHalfEven
  dsimp only
  split <;> omega

/-- A larger quotient does not round to a smaller number. -/
theorem roundHalfEven_mono {n₁ d₁ n₂ d₂ : Nat} (h₁ : 0 < d₁) (h₂ : 0 < d₂) (h : n₁ * d₂ ≤ n₂ * d₁) :
    roundHalfEven n₁ d₁ ≤ roundHalfEven n₂ d₂ := by
  have hq : n₁ / d₁ ≤ n₂ / d₂ := by
    rw [Nat.le_div_iff_mul_le h₂]
    have hle : n₁ / d₁ * d₁ ≤ n₁ := Nat.div_mul_le_self n₁ d₁
    have : n₁ / d₁ * d₂ * d₁ ≤ n₂ * d₁ := by nlinarith
    exact Nat.le_of_mul_le_mul_right this h₁
  rcases Nat.lt_or_eq_of_le hq with hlt | heq
  · have := roundHalfEven_le n₁ d₁
    have := le_roundHalfEven n₂ d₂
    omega
  · have e₁ := Nat.div_add_mod n₁ d₁
    have e₂ := Nat.div_add_mod n₂ d₂
    have hr : n₁ % d₁ * d₂ ≤ n₂ % d₂ * d₁ := by
      rw [← e₁, ← e₂, heq] at h
      nlinarith
    unfold roundHalfEven
    dsimp only
    rw [heq]
    split
    · rename_i hc
      rw [if_pos]
      rcases hc with hc | ⟨hc, ho⟩
      · left
        by_contra hn
        have : 2 * (n₂ % d₂) * d₁ ≤ d₂ * d₁ := Nat.mul_le_mul_right _ (by omega)
        have : d₁ * d₂ < 2 * (n₁ % d₁) * d₂ := Nat.mul_lt_mul_of_pos_right hc h₂
        nlinarith
      · have : d₂ ≤ 2 * (n₂ % d₂) := by
          have : d₂ * d₁ ≤ 2 * (n₂ % d₂) * d₁ := by nlinarith
          exact Nat.le_of_mul_le_mul_right this h₁
        omega
    · split <;> omega

/-- A whole number rounds to itself. -/
theorem roundHalfEven_exact (m : Nat) {d : Nat} (h : 0 < d) : roundHalfEven (m * d) d = m := by
  unfold roundHalfEven
  simp only [Nat.mul_div_cancel _ h, Nat.mul_mod_left]
  rw [if_neg (by omega)]

theorem roundHalfEven_one (m : Nat) : roundHalfEven m 1 = m := by
  have := roundHalfEven_exact m Nat.one_pos
  rwa [Nat.mul_one] at this

/-! ### The significand of a rounded quotient -/

/-- How many bits of the quotient do not fit in a significand. -/
def excessBits (num den : Nat) : Nat := Nat.log2 (num / den) - 52

theorem roundRatio_eq (num den : Nat) :
    roundRatio num den =
      min (excessBits num den * 2 ^ 52 + roundHalfEven num (den * 2 ^ excessBits num den)) f64InfBits := rfl

theorem quotient_lt (num den : Nat) : num / den < 2 ^ (53 + excessBits num den) := by
  by_cases h : num / den = 0
  · rw [h]
    exact Nat.two_pow_pos _
  · exact (Nat.log2_lt h).1 (by unfold excessBits; omega)

theorem le_quotient {num den : Nat} (h : 0 < excessBits num den) : 2 ^ (52 + excessBits num den) ≤ num / den := by
  have h0 : num / den ≠ 0 := by
    intro h0
    simp [excessBits, h0, Nat.log2_zero] at h
  exact (Nat.le_log2 h0).1 (by unfold excessBits at h ⊢; omega)

theorem significand_le {num den : Nat} (hd : 0 < den) :
    roundHalfEven num (den * 2 ^ excessBits num den) ≤ 2 ^ 53 := by
  have hpos : 0 < den * 2 ^ excessBits num den := Nat.mul_pos hd (Nat.two_pow_pos _)
  have hq := quotient_lt num den
  have hn : num < 2 ^ (53 + excessBits num den) * den := (Nat.div_lt_iff_lt_mul hd).1 hq
  have := roundHalfEven_mono (n₁ := num) (n₂ := 2 ^ 53) hpos Nat.one_pos (by
    rw [Nat.pow_add] at hn
    nlinarith)
  exact this.trans_eq (roundHalfEven_one _)

theorem le_significand {num den : Nat} (hd : 0 < den) (h : 0 < excessBits num den) :
    2 ^ 52 ≤ roundHalfEven num (den * 2 ^ excessBits num den) := by
  have hpos : 0 < den * 2 ^ excessBits num den := Nat.mul_pos hd (Nat.two_pow_pos _)
  have hn : 2 ^ (52 + excessBits num den) * den ≤ num := (Nat.le_div_iff_mul_le hd).1 (le_quotient h)
  have := roundHalfEven_mono (n₁ := 2 ^ 52) (n₂ := num) Nat.one_pos hpos (by
    rw [Nat.pow_add] at hn
    nlinarith)
  exact (roundHalfEven_one _).symm.trans_le this

theorem excessBits_mono {n₁ d₁ n₂ d₂ : Nat} (h₁ : 0 < d₁) (h₂ : 0 < d₂) (h : n₁ * d₂ ≤ n₂ * d₁) :
    excessBits n₁ d₁ ≤ excessBits n₂ d₂ := by
  by_contra hn
  have hk : 0 < excessBits n₁ d₁ := by omega
  have hge : 2 ^ (52 + excessBits n₁ d₁) * d₁ ≤ n₁ := (Nat.le_div_iff_mul_le h₁).1 (le_quotient hk)
  have hlt : n₂ < 2 ^ (53 + excessBits n₂ d₂) * d₂ := (Nat.div_lt_iff_lt_mul h₂).1 (quotient_lt n₂ d₂)
  have hp : 2 ^ (53 + excessBits n₂ d₂) ≤ 2 ^ (52 + excessBits n₁ d₁) := Nat.pow_le_pow_right (by decide) (by omega)
  have a1 : 2 ^ (52 + excessBits n₁ d₁) * d₁ * d₂ ≤ n₁ * d₂ := Nat.mul_le_mul_right _ hge
  have a2 : n₂ * d₁ < 2 ^ (53 + excessBits n₂ d₂) * d₂ * d₁ := Nat.mul_lt_mul_of_pos_right hlt h₁
  have a3 : 2 ^ (53 + excessBits n₂ d₂) * (d₂ * d₁) ≤ 2 ^ (52 + excessBits n₁ d₁) * (d₂ * d₁) := Nat.mul_le_mul_right _ hp
  nlinarith

/-- Rounding to binary64 is monotone: a larger quotient does not round to smaller bits. -/
theorem roundRatio_mono {n₁ d₁ n₂ d₂ : Nat} (h₁ : 0 < d₁) (h₂ : 0 < d₂) (h : n₁ * d₂ ≤ n₂ * d₁) :
    roundRatio n₁ d₁ ≤ roundRatio n₂ d₂ := by
  rw [roundRatio_eq, roundRatio_eq]
  refine min_le_min_right _ ?_
  rcases Nat.lt_or_eq_of_le (excessBits_mono h₁ h₂ h) with hlt | heq
  · have := significand_le (num := n₁) h₁
    have := le_significand (num := n₂) h₂ (by omega)
    omega
  · rw [heq]
    refine Nat.add_le_add_left (roundHalfEven_mono ?_ ?_ ?_) _
    · exact Nat.mul_pos h₁ (Nat.two_pow_pos _)
    · exact Nat.mul_pos h₂ (Nat.two_pow_pos _)
    · calc n₁ * (d₂ * 2 ^ excessBits n₂ d₂) = n₁ * d₂ * 2 ^ excessBits n₂ d₂ := by ring
        _ ≤ n₂ * d₁ * 2 ^ excessBits n₂ d₂ := Nat.mul_le_mul_right _ h
        _ = n₂ * (d₁ * 2 ^ excessBits n₂ d₂) := by ring

/-! ### The magnitude of bits -/

/-- The magnitude, in units of 2^−1074, of the bits below the sign bit. -/
def magOfBits (b : Nat) : Nat :=
  if b / 2 ^ 52 = 0 then b % 2 ^ 52 else (2 ^ 52 + b % 2 ^ 52) * 2 ^ (b / 2 ^ 52 - 1)

/-- More bits, more magnitude. -/
theorem magOfBits_mono {a b : Nat} (h : a ≤ b) : magOfBits a ≤ magOfBits b := by
  unfold magOfBits
  have hdiv : a / 2 ^ 52 ≤ b / 2 ^ 52 := Nat.div_le_div_right h
  have ha := Nat.div_add_mod a (2 ^ 52)
  have hb := Nat.div_add_mod b (2 ^ 52)
  have la : a % 2 ^ 52 < 2 ^ 52 := Nat.mod_lt _ (by decide)
  have lb : b % 2 ^ 52 < 2 ^ 52 := Nat.mod_lt _ (by decide)
  rcases Nat.lt_or_eq_of_le hdiv with hlt | heq
  · have hb0 : b / 2 ^ 52 ≠ 0 := by omega
    rw [if_neg hb0]
    split
    · exact Nat.le_trans (by omega) (Nat.le_mul_of_pos_right _ (Nat.two_pow_pos _))
    · rename_i ha0
      have hp : 2 * 2 ^ (a / 2 ^ 52 - 1) ≤ 2 ^ (b / 2 ^ 52 - 1) := by
        rw [← Nat.pow_succ']
        exact Nat.pow_le_pow_right (by decide) (by omega)
      calc (2 ^ 52 + a % 2 ^ 52) * 2 ^ (a / 2 ^ 52 - 1)
          ≤ (2 ^ 52 * 2) * 2 ^ (a / 2 ^ 52 - 1) := Nat.mul_le_mul_right _ (by omega)
        _ = 2 ^ 52 * (2 * 2 ^ (a / 2 ^ 52 - 1)) := by ring
        _ ≤ 2 ^ 52 * 2 ^ (b / 2 ^ 52 - 1) := Nat.mul_le_mul_left _ hp
        _ ≤ _ := Nat.mul_le_mul_right _ (by omega)
  · have hmod : a % 2 ^ 52 ≤ b % 2 ^ 52 := by omega
    rw [heq]
    split
    · exact hmod
    · exact Nat.mul_le_mul_right _ (by omega)

/-- A representable magnitude rounds to its own bits. -/
theorem roundRatio_magOfBits (b : Nat) {d : Nat} (hd : 0 < d) (hb : b ≤ f64InfBits) : roundRatio (magOfBits b * d) d = b := by
  have hq : magOfBits b * d / d = magOfBits b := Nat.mul_div_cancel _ hd
  have lb : b % 2 ^ 52 < 2 ^ 52 := Nat.mod_lt _ (by decide)
  have hdm := Nat.div_add_mod b (2 ^ 52)
  have key : excessBits (magOfBits b * d) d * 2 ^ 52 +
      roundHalfEven (magOfBits b * d) (d * 2 ^ excessBits (magOfBits b * d) d) = b := by
    unfold excessBits
    rw [hq]
    unfold magOfBits
    split
    · rename_i h0
      have hlog : Nat.log2 (b % 2 ^ 52) - 52 = 0 := by
        by_cases hz : b % 2 ^ 52 = 0
        · rw [hz, Nat.log2_zero]
        · have := (Nat.log2_lt hz).2 lb
          omega
      rw [hlog, Nat.pow_zero, Nat.mul_one, roundHalfEven_exact _ hd, Nat.zero_mul, Nat.zero_add]
      exact Nat.mod_eq_of_lt ((Nat.div_eq_zero_iff.1 h0).resolve_left (by decide))
    · rename_i h0
      have hlog : Nat.log2 ((2 ^ 52 + b % 2 ^ 52) * 2 ^ (b / 2 ^ 52 - 1)) = 52 + (b / 2 ^ 52 - 1) := by
        have hp : 0 < 2 ^ (b / 2 ^ 52 - 1) := Nat.two_pow_pos _
        have hne : (2 ^ 52 + b % 2 ^ 52) * 2 ^ (b / 2 ^ 52 - 1) ≠ 0 := by positivity
        apply Nat.le_antisymm
        · apply Nat.le_of_lt_succ
          rw [Nat.log2_lt hne, show Nat.succ (52 + (b / 2 ^ 52 - 1)) = 53 + (b / 2 ^ 52 - 1) from by omega, Nat.pow_add]
          exact Nat.mul_lt_mul_of_pos_right (by omega) hp
        · rw [Nat.le_log2 hne, Nat.pow_add]
          exact Nat.mul_le_mul_right _ (by omega)
      rw [hlog, Nat.add_sub_cancel_left]
      have : (2 ^ 52 + b % 2 ^ 52) * 2 ^ (b / 2 ^ 52 - 1) * d = (2 ^ 52 + b % 2 ^ 52) * (d * 2 ^ (b / 2 ^ 52 - 1)) := by ring
      rw [this, roundHalfEven_exact _ (Nat.mul_pos hd (Nat.two_pow_pos _))]
      omega
  rw [roundRatio_eq, key]
  exact min_eq_left hb

/-! ### Words -/

theorem f64Mag_eq (w : Word) : f64Mag w = magOfBits (w.toNat % 2 ^ 63) := by
  have hf : f64Frac w = (w.toNat % 2 ^ 63) % 2 ^ 52 := by
    simp only [f64Frac, BitVec.extractLsb'_toNat, Nat.shiftRight_zero]
    omega
  have he : f64Exp w = (w.toNat % 2 ^ 63) / 2 ^ 52 := by
    simp only [f64Exp, BitVec.extractLsb'_toNat, Nat.shiftRight_eq_div_pow]
    omega
  rw [f64Mag, magOfBits, hf, he]

theorem roundRatio_le_inf (num den : Nat) : roundRatio num den ≤ f64InfBits := min_le_right _ _

theorem f64InfBits_lt : f64InfBits < 2 ^ 63 := by decide

theorem f64Pack_bits (sign : Bool) {b : Nat} (h : b < 2 ^ 63) : (f64Pack sign b).toNat % 2 ^ 63 = b := by
  simp only [f64Pack, BitVec.toNat_append, BitVec.toNat_ofNat, Nat.mod_eq_of_lt h]
  rw [Nat.shiftLeft_eq, Nat.mul_comm, ← Nat.two_pow_add_eq_or_of_lt h, Nat.mul_add_mod, Nat.mod_eq_of_lt h]

theorem f64Mag_pack (sign : Bool) {b : Nat} (h : b < 2 ^ 63) : f64Mag (f64Pack sign b) = magOfBits b := by
  rw [f64Mag_eq, f64Pack_bits sign h]

end Sys2Proof.Machine
end

