-- ==== Sys2Proof/Laws/Binary64.lean ====
section
/-! SUPPORT. The binary64 operations on finite words: what a product and a quotient are, and bounds of a rounded quotient by
powers of two. -/

namespace Sys2Proof.Machine

/-! ### Classes of words -/

/-- A word that is finite and compares `> 0`. -/
structure PosFin (w : Word) : Prop where
  fin : f64IsFinite w = true
  pos : f64Pos w = true

theorem bits_lt_inf_of_finite {w : Word} (h : f64IsFinite w = true) : w.toNat % 2^63 < f64InfBits := by
  have : f64Exp w ≠ 2047 := by simpa [f64IsFinite] using h
  have he : f64Exp w = (w.toNat % 2 ^ 63) / 2 ^ 52 := by
    simp only [f64Exp, BitVec.extractLsb'_toNat, Nat.shiftRight_eq_div_pow]
    omega
  have : f64InfBits = 2047 * 2^52 := rfl
  rw [this]
  omega

theorem toNat_lt_of_pos {w : Word} (h : f64Pos w = true) : w.toNat < 2^63 := by
  simp only [f64Pos, Bool.and_eq_true, beq_iff_eq] at h
  have := h.1.1
  rw [BitVec.getLsbD, Nat.testBit_eq_decide_div_mod_eq] at this
  have := w.isLt
  simp at *
  omega

theorem toNat_ne_of_pos {w : Word} (h : f64Pos w = true) : w.toNat ≠ 0 := by
  simp only [f64Pos, Bool.and_eq_true, beq_iff_eq] at h
  intro h0
  have : w = 0 := BitVec.eq_of_toNat_eq h0
  subst this
  simp at h

theorem isNaN_of_finite {w : Word} (h : f64IsFinite w = true) : f64IsNaN w = false := by
  simp only [f64IsFinite, bne_iff_ne, ne_eq] at h
  simp [f64IsNaN, h]

theorem isInf_of_finite {w : Word} (h : f64IsFinite w = true) : f64IsInf w = false := by
  simp only [f64IsFinite, bne_iff_ne, ne_eq] at h
  simp [f64IsInf, h]

theorem sign_of_pos {w : Word} (h : f64Pos w = true) : f64Sign w = false := by
  simp only [f64Pos, Bool.and_eq_true, beq_iff_eq] at h
  exact h.1.1

theorem fl64Mul_of_finite {a b : Word} (ha : f64IsFinite a = true) (hb : f64IsFinite b = true) (sa : f64Sign a = false) (sb : f64Sign b = false) :
    fl64Mul a b = f64Pack false (roundRatio (f64Mag a * f64Mag b) f64One) := by
  unfold fl64Mul
  simp [isNaN_of_finite ha, isNaN_of_finite hb, isInf_of_finite ha, isInf_of_finite hb, sa, sb]

theorem f64One_pos : 0 < f64One := by unfold f64One; exact Nat.two_pow_pos _

theorem f64Mag_eight : f64Mag 0x4020000000000000 = 8 * f64One := by decide +kernel

theorem f64Mag_threeHalves : 2 * f64Mag 0x3FF8000000000000 = 3 * f64One := by decide +kernel

theorem roundRatio_lt {n d : Nat} : roundRatio n d < 2^63 := lt_of_le_of_lt (roundRatio_le_inf n d) f64InfBits_lt

theorem roundRatio_f64Mag {w : Word} (h : PosFin w) : roundRatio (f64Mag w) 1 = w.toNat := by
  rw [f64Mag_eq, Nat.mod_eq_of_lt (toNat_lt_of_pos h.pos)]
  have := roundRatio_magOfBits w.toNat Nat.one_pos (by have := bits_lt_inf_of_finite h.fin; rw [Nat.mod_eq_of_lt (toNat_lt_of_pos h.pos)] at this; omega)
  simpa using this

/-! ### Magnitudes -/

theorem f64Mag_pos {w : Word} (h : PosFin w) : 0 < f64Mag w := by
  rcases Nat.eq_zero_or_pos (f64Mag w) with h0 | h0
  · have := roundRatio_f64Mag h
    rw [h0] at this
    have h1 : roundRatio 0 1 = 0 := by decide +kernel
    have := toNat_ne_of_pos h.pos
    omega
  · exact h0

theorem isZero_of_pos {w : Word} (h : f64Pos w = true) : f64IsZero w = false := by
  by_contra hc
  have hc : f64IsZero w = true := by simpa using hc
  have h1 : f64Exp w = 0 ∧ f64Frac w = 0 := by simpa [f64IsZero] using hc
  have he : f64Exp w = (w.toNat % 2 ^ 63) / 2 ^ 52 := by
    simp only [f64Exp, BitVec.extractLsb'_toNat, Nat.shiftRight_eq_div_pow]
    omega
  have hf : f64Frac w = (w.toNat % 2 ^ 63) % 2 ^ 52 := by
    simp only [f64Frac, BitVec.extractLsb'_toNat, Nat.shiftRight_zero]
    omega
  have := toNat_lt_of_pos h
  have := toNat_ne_of_pos h
  omega

theorem fl64Div_of_finite {a b : Word} (ha : f64IsFinite a = true) (hb : f64IsFinite b = true) (zb : f64IsZero b = false) (sb : f64Sign b = false) :
    fl64Div a b = f64Pack (f64Sign a) (roundRatio (f64Mag a * f64One) (f64Mag b)) := by
  unfold fl64Div
  simp [isNaN_of_finite ha, isNaN_of_finite hb, isInf_of_finite ha, isInf_of_finite hb, zb, sb]

theorem f64Exp_pack (s : Bool) {b : Nat} (h : b < 2^63) : f64Exp (f64Pack s b) = b / 2^52 := by
  have he : f64Exp (f64Pack s b) = ((f64Pack s b).toNat % 2 ^ 63) / 2 ^ 52 := by
    simp only [f64Exp, BitVec.extractLsb'_toNat, Nat.shiftRight_eq_div_pow]
    omega
  rw [he, f64Pack_bits _ h]

theorem f64Frac_pack (s : Bool) {b : Nat} (h : b < 2^63) : f64Frac (f64Pack s b) = b % 2^52 := by
  have hf : f64Frac (f64Pack s b) = ((f64Pack s b).toNat % 2 ^ 63) % 2 ^ 52 := by
    simp only [f64Frac, BitVec.extractLsb'_toNat, Nat.shiftRight_zero]
    omega
  rw [hf, f64Pack_bits _ h]

theorem f64Sign_pack (s : Bool) (b : Nat) : f64Sign (f64Pack s b) = s := by
  unfold f64Sign f64Pack
  rw [BitVec.getLsbD_append]
  cases s <;> rfl

theorem f64IsFinite_pack (s : Bool) {b : Nat} (h : b < f64InfBits) : f64IsFinite (f64Pack s b) = true := by
  have : f64InfBits = 2047 * 2^52 := rfl
  have hb : b < 2^63 := lt_trans h f64InfBits_lt
  simp only [f64IsFinite, f64Exp_pack s hb, bne_iff_ne]
  omega

theorem f64IsInf_pack (s : Bool) : f64IsInf (f64Pack s f64InfBits) = true := by
  cases s <;> decide

theorem roundRatio_inf_or_lt {n d : Nat} : roundRatio n d = f64InfBits ∨ roundRatio n d < f64InfBits := by
  have := roundRatio_le_inf n d; omega

theorem magOfBits_pow (e : Nat) (h1 : 1 ≤ e) : magOfBits (e * 2^52) = 2^52 * 2^(e-1) := by
  unfold magOfBits
  have a : e * 2^52 / 2^52 = e := by omega
  have b : e * 2^52 % 2^52 = 0 := by omega
  rw [a, b, if_neg (by omega), Nat.add_zero]

theorem le_roundRatio_of_pow (e : Nat) (h1 : 1 ≤ e) (h2 : e ≤ 2047) {n d : Nat} (hd : 0 < d) (h : 2^52 * 2^(e-1) * d ≤ n) : e * 2^52 ≤ roundRatio n d := by
  have := roundRatio_magOfBits (e*2^52) Nat.one_pos (by have : f64InfBits = 2047 * 2^52 := rfl; omega)
  rw [← this]
  apply roundRatio_mono (by omega) hd
  rw [magOfBits_pow e h1]; simpa using h

theorem roundRatio_le_of_pow (e : Nat) (h1 : 1 ≤ e) (h2 : e ≤ 2047) {n d : Nat} (hd : 0 < d) (h : n ≤ 2^52 * 2^(e-1) * d) : roundRatio n d ≤ e * 2^52 := by
  have := roundRatio_magOfBits (e*2^52) Nat.one_pos (by have : f64InfBits = 2047 * 2^52 := rfl; omega)
  rw [← this]
  apply roundRatio_mono hd (by omega)
  rw [magOfBits_pow e h1]; simpa using h

theorem rates_of_valid {r b : Word} (hi : invalidRates r b = false) (fr : f64IsFinite r = true) (fb : f64IsFinite b = true) :
   (f64Sign r = false ∧ f64IsZero r = false) ∧ (f64Sign b = false ∧ f64IsZero b = false) := by
  simp [invalidRates, f64LeZero, isNaN_of_finite fr, isNaN_of_finite fb] at hi
  tauto

theorem f64One_eq : f64One = 2^52 * 2^1022 := by unfold f64One; rw [← Nat.pow_add]

theorem f64Mag_pos_of_not_zero {w : Word} (h : f64IsZero w = false) : 0 < f64Mag w := by
  unfold f64Mag
  split
  · rename_i h0
    simp [f64IsZero, h0] at h
    omega
  · exact Nat.mul_pos (by omega) (Nat.two_pow_pos _)

/-- The parts of "admitted" (40_sampler.md rule R109). -/
theorem admitted_parts {r b : Word} (ha : admitted r b = true) :
    f64IsFinite r = true ∧ f64IsFinite b = true ∧ PosFin (spbOf r b) ∧
      f64IsFinite (lookaheadProduct (spbOf r b)) = true ∧ lookaheadOf (spbOf r b) ≤ 2 ^ 32 - 1 := by
  simp only [admitted, Bool.and_eq_true, decide_eq_true_eq] at ha
  obtain ⟨⟨⟨⟨⟨h1, h2⟩, h3⟩, h4⟩, h5⟩, h6⟩ := ha
  exact ⟨h1, h2, ⟨h3, h4⟩, h5, h6⟩

end Sys2Proof.Machine
end

