-- ==== Sys2Proof/Laws/Decode.lean ====
section
/-! SUPPORT. The command decoder split at its tests, so that later proofs do not unfold it. -/

namespace Sys2Proof

/-- The reserved and must-be-0 bits that 30_encoding.md rule R82 names, as the decoder's own tests: the words are reserved
exactly where no row of rule R79 takes them. -/
theorem reservedWords_iff (w0 w1 w2 : Word) :
    reservedWords w0 w1 w2 = true ↔
      w0.extractLsb' 0 2 = 0b11#2 ∨ w0.extractLsb' 3 61 ≠ 0 ∨ (w0.getLsbD 2 = true ∧ w0.extractLsb' 0 2 ≠ 0b00#2) ∨
      (w0.extractLsb' 0 2 = 0b01#2 ∧
        ¬ (w1 = (w1.extractLsb' 0 Config.wIdx).setWidth 64 ∧ w2 = (w2.extractLsb' 0 Config.wIdx).setWidth 64)) ∨
      (w0.extractLsb' 0 2 = 0b10#2 ∧ ¬ (w1 = (w1.extractLsb' 0 Config.wInt).signExtend 64 ∧ w2 = 0)) := by
  have high (w : Word) : w.extractLsb' Config.wIdx (64 - Config.wIdx) = 0 ↔ w = (w.extractLsb' 0 Config.wIdx).setWidth 64 := by
    have hw := w.isLt
    rw [← BitVec.toNat_inj, ← BitVec.toNat_inj]
    simp [Config.wIdx, BitVec.extractLsb'_toNat, Nat.shiftRight_eq_div_pow]
    omega
  have h1 := high w1
  have h2 := high w2
  simp only [reservedWords, Bool.or_eq_true, Bool.and_eq_true, beq_iff_eq, bne_iff_ne, ne_eq, h1, h2, ← not_and_or,
    or_assoc]

/-- What every command word decodes to, by the two bits of OP. -/
theorem decodeCommand_cases (w0 w1 w2 : Word) :
    (reservedWords w0 w1 w2 = true ∧ decodeCommand w0 w1 w2 = .reserved w0 w1 w2) ∨
    (reservedWords w0 w1 w2 = false ∧ w0 = commandWord0 (w0.getLsbD 2) 0b00#2 ∧
      decodeCommand w0 w1 w2 = .configure (w0.getLsbD 2) w1 w2) ∨
    (reservedWords w0 w1 w2 = false ∧ w0 = commandWord0 false 0b01#2 ∧
      w1 = (w1.extractLsb' 0 Config.wIdx).setWidth 64 ∧ w2 = (w2.extractLsb' 0 Config.wIdx).setWidth 64 ∧
      decodeCommand w0 w1 w2 = .decode (w1.extractLsb' 0 Config.wIdx) (w2.extractLsb' 0 Config.wIdx)) ∨
    (reservedWords w0 w1 w2 = false ∧ w0 = commandWord0 false 0b10#2 ∧
      w1 = (w1.extractLsb' 0 Config.wInt).signExtend 64 ∧ w2 = 0 ∧
      decodeCommand w0 w1 w2 = .reqin (w1.extractLsb' 0 Config.wInt)) := by
  have hr := reservedWords_iff w0 w1 w2
  have fields : w0 = w0.extractLsb' 3 61 ++ BitVec.ofBool (w0.getLsbD 2) ++ w0.extractLsb' 0 2 := by
    apply BitVec.eq_of_getLsbD_eq
    intro i hi
    rw [BitVec.getLsbD_append, BitVec.getLsbD_append, BitVec.getLsbD_extractLsb', BitVec.getLsbD_extractLsb',
      BitVec.getLsbD_ofBool]
    by_cases h2 : i < 2
    · simp [h2]
    · by_cases h3 : i = 2
      · subst h3
        simp
      · have e1 : ¬ i - 2 < 1 := by omega
        have e2 : i - 2 - 1 < 61 := by omega
        have e3 : 3 + (i - 2 - 1) = i := by omega
        simp [h2, e1, e2, e3]
  have word (h0 : w0.extractLsb' 3 61 = 0) (p : Bool) (hp : w0.getLsbD 2 = p) (op : BitVec 2)
      (hop : w0.extractLsb' 0 2 = op) : w0 = commandWord0 p op := by
    rw [h0, hp, hop] at fields
    exact fields
  have op4 : ∀ op : BitVec 2, op = 0b00#2 ∨ op = 0b01#2 ∨ op = 0b10#2 ∨ op = 0b11#2 := by decide
  unfold decodeCommand
  by_cases h0 : w0.extractLsb' 3 61 = 0
  swap
  · exact .inl ⟨hr.2 (.inr (.inl h0)), if_pos h0⟩
  rw [if_neg (not_not.2 h0)]
  cases hp : w0.getLsbD 2 <;> rcases op4 (w0.extractLsb' 0 2) with hop | hop | hop | hop
  all_goals rw [hop, h0, hp] at hr
  · refine .inr (.inl ⟨?_, word h0 _ hp _ hop, by rw [if_pos hop]⟩)
    simpa [← Bool.not_eq_true] using hr
  · rw [if_neg (by rw [hop]; decide), if_neg (by decide), if_pos hop]
    by_cases hw : w1 = (w1.extractLsb' 0 Config.wIdx).setWidth 64 ∧ w2 = (w2.extractLsb' 0 Config.wIdx).setWidth 64
    · refine .inr (.inr (.inl ⟨?_, word h0 _ hp _ hop, hw.1, hw.2, if_pos hw⟩))
      rw [← Bool.not_eq_true, hr]
      rintro (h | h | h | h | h)
      · revert h; decide
      · exact h rfl
      · exact Bool.false_ne_true h.1
      · exact h.2 hw
      · revert h; exact fun h => absurd h.1 (by decide)
    · exact .inl ⟨hr.2 (.inr (.inr (.inr (.inl ⟨rfl, hw⟩)))), if_neg hw⟩
  · rw [if_neg (by rw [hop]; decide), if_neg (by decide), if_neg (by rw [hop]; decide), if_pos hop]
    by_cases hw : w1 = (w1.extractLsb' 0 Config.wInt).signExtend 64 ∧ w2 = 0
    · refine .inr (.inr (.inr ⟨?_, word h0 _ hp _ hop, hw.1, hw.2, if_pos hw⟩))
      rw [← Bool.not_eq_true, hr]
      rintro (h | h | h | h | h)
      · revert h; decide
      · exact h rfl
      · exact Bool.false_ne_true h.1
      · revert h; exact fun h => absurd h.1 (by decide)
      · exact h.2 hw
    · exact .inl ⟨hr.2 (.inr (.inr (.inr (.inr ⟨rfl, hw⟩)))), if_neg hw⟩
  · rw [if_neg (by rw [hop]; decide), if_neg (by decide), if_neg (by rw [hop]; decide), if_neg (by rw [hop]; decide)]
    exact .inl ⟨hr.2 (.inl rfl), rfl⟩
  · refine .inr (.inl ⟨?_, word h0 _ hp _ hop, by rw [if_pos hop]⟩)
    simpa [← Bool.not_eq_true] using hr
  all_goals
    rw [if_neg (by rw [hop]; decide), if_pos rfl]
    exact .inl ⟨hr.2 (.inr (.inr (.inl ⟨rfl, by decide⟩))), rfl⟩

end Sys2Proof
end

