-- ==== Sys2Proof/Laws/PerInstr.lean ====
section
/-! SUPPORT. One statement per instruction as syntax: the patterns that decode to it are those of its row in
30_encoding.md rules R77 to R79 and R82. -/

namespace Sys2Proof

/-- The patterns of a step kind's row are the selectors that agree with `pattern` under `mask`. -/
def selectorRow (mask pattern : BitVec 4) (i : Instr) : Prop :=
  ∀ sel : BitVec 4, decodeSelector sel = some i ↔ sel &&& mask = pattern

theorem decodeMapper_mapChar_iff (c code : Code) :
    decodeMapper c = .mapChar code ↔ c = code ∧ code ≠ 27#5 ∧ code ≠ 31#5 := by
  revert c code
  decide +kernel

end Sys2Proof

namespace Sys2Proof.Laws.RowDecodes

/-- The patterns that decode to the instruction are those of its row, with its operands in their fields. -/
def Statement : Instr → Prop
  | .startHit => selectorRow 0b1101#4 0b0000#4 .startHit
  | .startMiss => selectorRow 0b1101#4 0b0001#4 .startMiss
  | .dataSpace => selectorRow 0b1111#4 0b0100#4 .dataSpace
  | .dataMark => selectorRow 0b1111#4 0b0101#4 .dataMark
  | .frameComplete => selectorRow 0b1110#4 0b0110#4 .frameComplete
  | .stopFail => selectorRow 0b1101#4 0b1000#4 .stopFail
  | .stopMatch => selectorRow 0b1101#4 0b1001#4 .stopMatch
  | .mapFigs => ∀ c : Code, decodeMapper c = .mapFigs ↔ c = 0b11011#5
  | .mapLtrs => ∀ c : Code, decodeMapper c = .mapLtrs ↔ c = 0b11111#5
  | .mapChar code => ∀ c : Code, decodeMapper c = .mapChar code ↔ c = code ∧ code ≠ 0b11011#5 ∧ code ≠ 0b11111#5
  | .configure pol rate baud =>
    ∀ w0 w1 w2 : Word, decodeCommand w0 w1 w2 = .configure pol rate baud →
      w0 &&& 0xFFFFFFFFFFFFFFFB = 0 ∧ w0.getLsbD 2 = pol ∧ w1 = rate ∧ w2 = baud
  | .decode n maxOut =>
    ∀ w0 w1 w2 : Word, decodeCommand w0 w1 w2 = .decode n maxOut →
      w0 = 1 ∧ w1 = n.setWidth 64 ∧ w2 = maxOut.setWidth 64
  | .reqin d =>
    ∀ w0 w1 w2 : Word, decodeCommand w0 w1 w2 = .reqin d → w0 = 2 ∧ w1 = d.signExtend 64 ∧ w2 = 0
  | .reserved r0 r1 r2 =>
    ∀ w0 w1 w2 : Word, decodeCommand w0 w1 w2 = .reserved r0 r1 r2 →
      reservedWords w0 w1 w2 = true ∧ w0 = r0 ∧ w1 = r1 ∧ w2 = r2

theorem startHit : Statement .startHit := by
  show selectorRow _ _ _
  unfold selectorRow
  decide

theorem startMiss : Statement .startMiss := by
  show selectorRow _ _ _
  unfold selectorRow
  decide

theorem dataSpace : Statement .dataSpace := by
  show selectorRow _ _ _
  unfold selectorRow
  decide

theorem dataMark : Statement .dataMark := by
  show selectorRow _ _ _
  unfold selectorRow
  decide

theorem frameComplete : Statement .frameComplete := by
  show selectorRow _ _ _
  unfold selectorRow
  decide

theorem stopFail : Statement .stopFail := by
  show selectorRow _ _ _
  unfold selectorRow
  decide

theorem stopMatch : Statement .stopMatch := by
  show selectorRow _ _ _
  unfold selectorRow
  decide

theorem mapFigs : Statement .mapFigs := by
  unfold Statement
  decide

theorem mapLtrs : Statement .mapLtrs := by
  unfold Statement
  decide

theorem mapChar (code : Code) : Statement (.mapChar code) := fun c => decodeMapper_mapChar_iff c code

theorem configure (pol : Bool) (rate baud : Word) : Statement (.configure pol rate baud) := by
  intro w0 w1 w2 h
  rcases decodeCommand_cases w0 w1 w2 with ⟨-, e⟩ | ⟨-, hw, e⟩ | ⟨-, -, -, -, e⟩ | ⟨-, -, -, -, e⟩ <;> rw [e] at h <;> cases h
  refine ⟨?_, rfl, rfl, rfl⟩
  rw [hw]
  cases w0.getLsbD 2 <;> rfl

theorem decode (n maxOut : Index) : Statement (.decode n maxOut) := by
  intro w0 w1 w2 h
  rcases decodeCommand_cases w0 w1 w2 with ⟨-, e⟩ | ⟨-, -, e⟩ | ⟨-, hw, h1, h2, e⟩ | ⟨-, -, -, -, e⟩ <;> rw [e] at h <;> cases h
  exact ⟨hw, h1, h2⟩

theorem reqin (d : HostInt) : Statement (.reqin d) := by
  intro w0 w1 w2 h
  rcases decodeCommand_cases w0 w1 w2 with ⟨-, e⟩ | ⟨-, -, e⟩ | ⟨-, -, -, -, e⟩ | ⟨-, hw, h1, h2, e⟩ <;> rw [e] at h <;> cases h
  exact ⟨hw, h1, h2⟩

theorem reserved (r0 r1 r2 : Word) : Statement (.reserved r0 r1 r2) := by
  intro w0 w1 w2 h
  rcases decodeCommand_cases w0 w1 w2 with ⟨hr, e⟩ | ⟨-, -, e⟩ | ⟨-, -, -, -, e⟩ | ⟨-, -, -, -, e⟩ <;> rw [e] at h <;> cases h
  exact ⟨hr, rfl, rfl, rfl⟩

end Sys2Proof.Laws.RowDecodes
end

