-- ==== Sys2Proof/Laws/Run.lean ====
section
/-! SUPPORT. What a running DECODE and an idle core fetch, what a step of a DECODE keeps, and runs of several steps. -/

namespace Sys2Proof.Machine

/-! ### Numbers -/

/-- An index is below 2^32, said with the numeral, because arithmetic tactics do not unfold `Config.wIdx`. -/
theorem Index.toNat_lt (i : Index) : i.toNat < 4294967296 := i.isLt

/-- A count below a limit rises by 1 without wrapping. -/
theorem outCount_succ {s : State} (h : s.outCount.toNat < s.maxOut.toNat) : (s.outCount + 1).toNat = s.outCount.toNat + 1 := by
  have := s.maxOut.isLt
  have one : (1 : Index).toNat = 1 := rfl
  rw [BitVec.toNat_add, one, Nat.mod_eq_of_lt]
  omega

/-- The cursor advances without wrapping while it stays within N. -/
theorem cursor_add {s : State} {k : Index} (h : s.cursor.toNat + k.toNat ≤ s.n.toNat) :
    (s.cursor + k).toNat = s.cursor.toNat + k.toNat := by
  have := s.n.isLt
  rw [BitVec.toNat_add, Nat.mod_eq_of_lt]
  omega

theorem bitIndex_succ {b : Fin 6} (h : b.val ≤ 4) : (b + 1).val = b.val + 1 := by
  revert b
  decide

/-! ### What is fetched -/

/-- A step selector names step kinds only. -/
theorem decodeSelector_cases {sel : BitVec 4} {i : Instr} (h : decodeSelector sel = some i) : Fetch.IsStep i := by
  unfold decodeSelector at h
  dsimp only at h
  split_ifs at h <;> cases h <;> simp [Fetch.IsStep]

/-- Inside a DECODE only step kinds run, and only while the guard holds. -/
theorem fetch_run_busy {s : State} {i : Instr} (hb : s.busy = true) (h : fetch s = .run i) : s.rst = false ∧ s.StepAllowed ∧ Fetch.IsStep i := by
  rcases fetch_cases s with c | c | ⟨hr, -, ha, sel, hs, ⟨j, hd, hf⟩ | ⟨-, hf⟩⟩ | c | c | c
  · rw [c.2] at h; cases h
  · rw [c.2.2.2.2] at h; cases h
  · rw [hf] at h; cases h; exact ⟨hr, ha, decodeSelector_cases hd⟩
  · rw [hf] at h; cases h
  · rw [c.2.2.2] at h; cases h
  · rw [hb] at c; simp at c
  · rw [hb] at c; simp at c

/-- At an idle core only commands run. -/
theorem fetch_run_idle {s : State} {i : Instr} (hb : s.busy = false) (h : fetch s = .run i) :
    (∃ p r b, i = .configure p r b) ∨ (∃ n m, i = .decode n m) ∨ (∃ d, i = .reqin d) ∨ (∃ a b c, i = .reserved a b c) := by
  rcases fetch_cases s with c | c | c | c | c | ⟨-, -, c, -, hf⟩
  · rw [c.2] at h
    cases h
  · exact absurd (hb.symm.trans c.2.1) Bool.false_ne_true
  · exact absurd (hb.symm.trans c.2.1) Bool.false_ne_true
  · exact absurd (hb.symm.trans c.2.1) Bool.false_ne_true
  · rw [c.2.2.2] at h
    cases h
  · rw [hf] at h
    cases h
    rcases Sys2Proof.decodeCommand_cases c.w0 c.w1 c.w2 with ⟨-, e⟩ | ⟨-, -, e⟩ | ⟨-, -, -, -, e⟩ | ⟨-, -, -, -, e⟩
    · exact .inr (.inr (.inr ⟨_, _, _, e⟩))
    · exact .inl ⟨_, _, _, e⟩
    · exact .inr (.inl ⟨_, _, e⟩)
    · exact .inr (.inr (.inl ⟨_, e⟩))

/-- The reset event is fetched only while RST is asserted. -/
theorem rst_of_fetch {s : State} (h : fetch s = .resetEvent) : s.rst = true := by
  rcases fetch_cases s with c | c | ⟨hr, -, ha, sel, hs, ⟨j, hd, hf⟩ | ⟨-, hf⟩⟩ | c | c | ⟨-, -, c, hc, hf⟩
  · exact c.1
  · rw [c.2.2.2.2] at h; cases h
  · rw [hf] at h; cases h
  · rw [hf] at h; cases h
  · rw [c.2.2.2] at h; cases h
  · rw [c.2.2.2] at h; cases h
  · rw [hf] at h; cases h

theorem step_busy_run {s t : State} {i : Instr} (hb : s.busy = true) (hf : fetch s = .run i) (hs : step s = .next t) :
  Fetch.IsStep i ∧ exec i s = .next t := by
  rw [step_run hf] at hs
  exact ⟨(fetch_run_busy hb hf).2.2, hs⟩

/-- What no step kind changes. -/
theorem step_busy_keeps {s t : State} {i : Instr} (hb : s.busy = true) (hf : fetch s = .run i) (hs : step s = .next t) :
   t.busy = true ∧ s.SameConfig t ∧ t.win = s.win ∧ t.rst = s.rst ∧ t.cmd = s.cmd ∧ t.rsp = s.rsp ∧ t.n = s.n ∧ t.maxOut = s.maxOut := by
  obtain ⟨hi, he⟩ := step_busy_run hb hf hs
  rcases hi with rfl | rfl | rfl | rfl | rfl | rfl | rfl
  · obtain ⟨-, hp, -, rfl⟩ := execStartHit_next he; simp [hb, State.SameConfig]
  · obtain ⟨-, hp, -, rfl⟩ := execStartMiss_next he; simp [hb, State.SameConfig]
  · obtain ⟨-, hp, -, -, rfl⟩ := execDataSpace_next he; simp [hb, State.SameConfig]
  · obtain ⟨-, hp, -, -, rfl⟩ := execDataMark_next he; simp [hb, State.SameConfig]
  · obtain ⟨-, hp, -, rfl⟩ := execFrameComplete_next he; simp [hb, State.SameConfig]
  · obtain ⟨-, hp, -, rfl⟩ := execStopFail_next he; simp [hb, State.SameConfig]
  · obtain ⟨-, hp, -, rfl⟩ := execStopMatch_next he; simp [hb, State.SameConfig, stopMatched, appended]

/-! ### Runs -/

theorem core_run_succ (M : Host.Core) (k : Nat) (s : M.State) :
    M.run (k + 1) s =
      (match M.step s with | .next s' => M.run k s' | .fault r => .fault r | .refused r => .refused r) := rfl

/-- A run of `k + 1` steps is the first step and then a run of `k`. -/
theorem run_succ {s t : State} (h : step s = .next t) (k : Nat) : Host.Core.run Sys2Proof.core (k+1) s = Host.Core.run Sys2Proof.core k t := by
  refine (core_run_succ Sys2Proof.core k s).trans ?_
  have : Sys2Proof.core.step s = .next t := h
  rw [this]

theorem run_succ_next {s t : State} {k : Nat} (h : Host.Core.run Sys2Proof.core (k+1) s = .next t) :
    ∃ u, step s = .next u ∧ Host.Core.run Sys2Proof.core k u = .next t := by
  replace h := (core_run_succ Sys2Proof.core k s).symm.trans h
  split at h
  · rename_i u hu; exact ⟨u, hu, h⟩
  · cases h
  · cases h

theorem run_add (s t : State) (a b : Nat) (h : Host.Core.run Sys2Proof.core a s = .next t) :
   Host.Core.run Sys2Proof.core (a+b) s = Host.Core.run Sys2Proof.core b t := by
  induction a generalizing s with
  | zero => cases h; simp
  | succ a ih =>
    obtain ⟨u, hu, h⟩ := run_succ_next h
    rw [Nat.add_right_comm, run_succ hu]; exact ih u h

end Sys2Proof.Machine
end

