-- ==== Sys2Proof/Tests/Slice0.lean ====
section
/-! SUPPORT. The model's own tests, and the witnesses: for each obligation with hypotheses, a concrete state and operands
that meet them all. Expected results are the spec's own (95_test_vectors.md and the examples of the rules), named in each
comment. -/

namespace Sys2Proof.Tests

open Sys2Proof Sys2Proof.Machine

/-! ### Helpers: the numbers and the states of 95_test_vectors.md -/

/-- +1.0, mark level under pol = 1. -/
def plusOne : Word := 0x3FF0000000000000

/-- −1.0, space level under pol = 1. -/
def minusOne : Word := 0xBFF0000000000000

/-- 10.0. -/
def ten : Word := 0x4024000000000000

/-- A sample at mark or at space level under pol = 1. -/
def level (mark : Bool) : Word := if mark then plusOne else minusOne

/-- The configuration K10, idle. -/
def k10 : State :=
  { State.reset with
    configured := true, cfgRate := ten, cfgBaud := plusOne, cfgPol := true
    spb := ten, advBit := 10, advStart := 15, lookahead := 80 }

/-- Inside a DECODE under K10, with one sample at the cursor `c` and the guard exactly met: N − c = LOOKAHEAD. The
elements that nothing has written read +0.0, which is space. -/
def inDecode (ph : Phase) (bits : Fin 6) (acc : Code) (t : Table) (c : Index) (mark : Bool) : State :=
  { k10 with
    phase := ph, bitIndex := bits, accumulator := acc, activeTable := t
    cursor := c, outCount := 0, n := c + 80, maxOut := 1, busy := true
    win := [(c.toNat, level mark)] }

/-- A window of runs: `n` samples at a level, one run after another, from an index on. -/
def runs (i : Nat) : List (Bool × Nat) → Window
  | [] => []
  | (m, n) :: rest => (List.range n).map (fun j => (i + j, level m)) ++ runs (i + n) rest

/-- A command on the port of an idle core. -/
def offered (s : State) (w0 w1 w2 : Word) : State := { s with cmd := some (Command.mk w0 w1 w2) }

/-- What an answer gives, if it is a next state. -/
def after {α : Type} (r : Result) (f : State → α) : Option α :=
  match r with
  | .next t => some (f t)
  | .fault _ => none
  | .refused _ => none

/-- Why an answer refuses, if it does. -/
def refusal (r : Result) : Option Refusal :=
  match r with
  | .next _ => none
  | .fault _ => none
  | .refused x => some x

/-- phase, bit_index, accumulator, active_table: the notation of 95_test_vectors.md for DecoderState. -/
def decoderOf (s : State) : Phase × Nat × Nat × Table := (s.phase, s.bitIndex.val, s.accumulator.toNat, s.activeTable)

/-! ### WellFormed: an ill-formed term for each check -/

theorem test_wellFormed_refuses_shift_codes :
    wellFormed (.mapChar 27) = false ∧ wellFormed (.mapChar 31) = false ∧
    wellFormed (.mapChar 26) = true ∧ wellFormed (.mapChar 28) = true := by decide

theorem test_wellFormed_refuses_defined_words :
    wellFormed (.reserved 0x4 ten plusOne) = false ∧ wellFormed (.reserved 0x1 0xFFFFFFFF 0xFFFFFFFF) = false ∧
    wellFormed (.reserved 0x2 0xFFFFFFFF80000000 0) = false := by decide

/-- The words of V-C3, one for each row of 30_encoding.md rule R82. -/
theorem test_wellFormed_accepts_reserved_words :
    wellFormed (.reserved 0x3 0 0) = true ∧ wellFormed (.reserved 0x5 0x64 0x4) = true ∧
    wellFormed (.reserved 0x8 0 0) = true ∧ wellFormed (.reserved 0x8000000000000000 0 0) = true ∧
    wellFormed (.reserved 0x1 0x100000000 0) = true ∧ wellFormed (.reserved 0x1 0 0x100000000) = true ∧
    wellFormed (.reserved 0x2 0 1) = true ∧ wellFormed (.reserved 0x2 0x80000000 0) = true := by decide

/-! ### Decode: each constructor from a word written out from 30_encoding.md -/

/-- Rule R77, PH = 00; DN is not examined. -/
theorem test_decode_start_kinds :
    decodeSelector 0b0000#4 = some .startHit ∧ decodeSelector 0b0010#4 = some .startHit ∧
    decodeSelector 0b0001#4 = some .startMiss ∧ decodeSelector 0b0011#4 = some .startMiss := by decide

/-- Rule R77, PH = 01; with DN = 1, LV is not examined. -/
theorem test_decode_framing_kinds :
    decodeSelector 0b0100#4 = some .dataSpace ∧ decodeSelector 0b0101#4 = some .dataMark ∧
    decodeSelector 0b0110#4 = some .frameComplete ∧ decodeSelector 0b0111#4 = some .frameComplete := by decide

/-- Rule R77, PH = 10 and the reserved PH = 11. -/
theorem test_decode_stop_kinds :
    decodeSelector 0b1000#4 = some .stopFail ∧ decodeSelector 0b1001#4 = some .stopMatch ∧
    decodeSelector 0b1100#4 = none ∧ decodeEncoded (.selector 0b1111#4) = .error .reservedPhase := by decide

/-- Rule R78. -/
theorem test_decode_mapper :
    decodeMapper 0b11011#5 = .mapFigs ∧ decodeMapper 0b11111#5 = .mapLtrs ∧ decodeMapper 0b00011#5 = .mapChar 3 ∧
    decodeMapper 0b00000#5 = .mapChar 0 := by decide

/-- Rule R79; the command words of programs P1 and P4. -/
theorem test_decode_commands :
    decodeCommand 0x0000000000000004 0x4024000000000000 0x3FF0000000000000 = .configure true ten plusOne ∧
    decodeCommand 0x0000000000000000 0x4024000000000000 0xBFF0000000000000 = .configure false ten minusOne ∧
    decodeCommand 0x0000000000000001 0x00000000000000AF 0x0000000000000010 = .decode 175 16 ∧
    decodeCommand 0x0000000000000002 0xFFFFFFFFFFFFFFFF 0x0000000000000000 = .reqin (BitVec.ofInt 32 (-1)) := by decide

/-- V-C3. -/
theorem test_decode_reserved :
    decodeCommand 0x3 0 0 = .reserved 0x3 0 0 ∧ decodeCommand 0x5 0x64 0x4 = .reserved 0x5 0x64 0x4 ∧
    decodeCommand 0x8 0 0 = .reserved 0x8 0 0 ∧ decodeCommand 0x1 0x100000000 0 = .reserved 0x1 0x100000000 0 ∧
    decodeCommand 0x2 0 1 = .reserved 0x2 0 1 ∧ decodeCommand 0x2 0x80000000 0 = .reserved 0x2 0x80000000 0 := by decide

/-- Rule R79's boundary operands: the greatest N and MAX_OUT, and the least REQIN argument. -/
theorem test_decode_boundary_operands :
    decodeCommand 0x1 0xFFFFFFFF 0xFFFFFFFF = .decode 0xFFFFFFFF 0xFFFFFFFF ∧
    decodeCommand 0x2 0xFFFFFFFF80000000 0 = .reqin 0x80000000 := by decide

/-! ### The level classifier: V-S1 -/

/-- V-S1 under pol = 1, row by row. -/
theorem test_level_pol_one :
    [0x3FF0000000000000, 0xBFF0000000000000, 0x0000000000000000, 0x8000000000000000, 0x0000000000000001,
      0x8000000000000001, 0x0010000000000000].map k10.isMark = [true, false, false, false, true, false, true] ∧
    [0x7FEFFFFFFFFFFFFF, 0x7FF0000000000000, 0xFFF0000000000000, 0x7FF8000000000000, 0x7FF0000000000001,
      0xFFFFFFFFFFFFFFFF].map k10.isMark = [true, true, false, false, false, false] := by decide

/-- V-S1 under pol = 0. -/
theorem test_level_pol_zero :
    [0x3FF0000000000000, 0xBFF0000000000000, 0x0000000000000000, 0x8000000000000000,
      0x7FF8000000000000, 0xFFF0000000000000].map { k10 with cfgPol := false }.isMark =
      [false, true, true, true, true, true] := by decide

/-! ### The derived constants: V-S2 -/

/-- SPB, ADV_BIT, ADV_START and LOOKAHEAD of a configuration. -/
def constants (rate baud : Word) : Word × Nat × Nat × Nat :=
  let spb := spbOf rate baud
  (spb, advBitOf spb, advStartOf spb, lookaheadOf spb)

theorem test_constants_whole_rates :
    constants ten plusOne = (ten, 10, 15, 80) ∧
    constants 0x40E7700000000000 0x4049000000000000 = (0x408E000000000000, 960, 1440, 7680) ∧
    constants ten 0x4034000000000000 = (0x3FE0000000000000, 0, 0, 4) := by decide +kernel

theorem test_constants_rounded_rates :
    constants 0x40BF400000000000 0x4046B9999999999A = (0x40660090319109DB, 176, 264, 1409) ∧
    constants 0x40C5888000000000 0x4046B9999999999A = (0x406E5260511BE195, 242, 363, 1941) ∧
    constants 0x4025CCCCCCCCCCCD plusOne = (0x4025CCCCCCCCCCCD, 10, 16, 88) ∧
    constants 0x401F99999999999A plusOne = (0x401F99999999999A, 7, 11, 64) ∧
    constants 0x401C000000000000 ten = (0x3FE6666666666666, 0, 1, 6) := by decide +kernel

/-! ### The step kinds: the examples of 41_frame_decoder.md -/

/-- Rule R121: cursor = 20, a space sample. -/
theorem test_start_hit :
    after (exec .startHit (inDecode .awaitingStart 0 0 .letters 20 false)) (fun t => (decoderOf t, t.cursor)) =
      some ((.framing, 0, 0, .letters), 35) := by decide

/-- Rule R122: cursor = 7, a mark sample. -/
theorem test_start_miss :
    after (exec .startMiss (inDecode .awaitingStart 0 0 .letters 7 true)) (fun t => (decoderOf t, t.cursor)) =
      some ((.awaitingStart, 0, 0, .letters), 8) := by decide

/-- Rule R123: bit_index = 1, accumulator = 0b00001, cursor = 45. -/
theorem test_data_mark :
    after (exec .dataMark (inDecode .framing 1 0b00001 .letters 45 true)) (fun t => (decoderOf t, t.cursor)) =
      some ((.framing, 2, 0b00011, .letters), 55) := by decide

/-- Rule R124: bit_index = 2, accumulator = 0b00011, cursor = 55. -/
theorem test_data_space :
    after (exec .dataSpace (inDecode .framing 2 0b00011 .letters 55 false)) (fun t => (decoderOf t, t.cursor)) =
      some ((.framing, 3, 0b00011, .letters), 65) := by decide

/-- Rule R125: bit_index = 5, accumulator = 0b00011, cursor = 85. -/
theorem test_frame_complete :
    after (exec .frameComplete (inDecode .framing 5 0b00011 .letters 85 true)) (fun t => (decoderOf t, t.cursor)) =
      some ((.awaitingStop, 5, 0b00011, .letters), 85) := by decide

/-- Rule R126: accumulator = 3 in Letters, cursor = 85. -/
theorem test_stop_with_mark :
    after (exec .stopMatch (inDecode .awaitingStop 5 3 .letters 85 true)) (fun t => (decoderOf t, t.cursor)) =
      some ((.awaitingStart, 5, 0, .letters), 85) ∧
    after (exec .stopMatch (inDecode .awaitingStop 5 3 .letters 85 true)) (fun t => (Memory.read t.out 0, t.outCount)) =
      some (some 0x41, 1) := by decide

/-- V-F12: a dropped frame with accumulator 27 keeps the table and writes no byte. -/
theorem test_stop_with_space_keeps_table :
    after (exec .stopFail (inDecode .awaitingStop 5 27 .letters 70 false)) (fun t => (decoderOf t, t.cursor)) =
      some ((.awaitingStart, 5, 0, .letters), 70) ∧
    after (exec .stopFail (inDecode .awaitingStop 5 27 .letters 70 false)) (fun t => (Memory.read t.out 0, t.outCount)) =
      some (none, 0) := by decide

/-- Rule R120 by `step`: the level at the cursor picks between START_HIT and START_MISS. -/
theorem test_step_picks_start_kind :
    fetch (inDecode .awaitingStart 0 0 .letters 7 true) = .run .startMiss ∧
    fetch (inDecode .awaitingStart 0 0 .letters 7 false) = .run .startHit ∧
    fetch (inDecode .framing 5 3 .letters 7 false) = .run .frameComplete := by decide

/-! ### The mapper: V-M1 to V-M8, each one STOP_MATCH -/

/-- The byte and the table after one STOP_MATCH. -/
def mapped (code : Code) (t : Table) : Option (Option Byte × Table) :=
  after (exec .stopMatch (inDecode .awaitingStop 5 code t 0 true)) fun s => (Memory.read s.out 0, s.activeTable)

theorem test_mapper_shift_codes :
    mapped 27 .letters = some (some 0x00, .figures) ∧ mapped 27 .figures = some (some 0x00, .figures) ∧
    mapped 31 .figures = some (some 0x00, .letters) ∧ mapped 31 .letters = some (some 0x00, .letters) := by decide

theorem test_mapper_characters :
    mapped 16 .letters = some (some 0x54, .letters) ∧ mapped 16 .figures = some (some 0x35, .figures) ∧
    mapped 0 .letters = some (some 0x00, .letters) ∧ mapped 0 .figures = some (some 0x00, .figures) ∧
    mapped 3 .figures = some (some 0x2D, .figures) ∧ mapped 26 .letters = some (some 0x47, .letters) ∧
    mapped 30 .figures = some (some 0x3B, .figures) := by decide

/-- Rules R151 to R153 by their examples: out_count 0, 2 and 1. -/
theorem test_mapper_operations :
    after (exec .mapFigs { k10 with maxOut := 4 }) (fun t => (t.activeTable, Memory.read t.out 0, t.outCount)) =
      some (.figures, some 0x00, 1) ∧
    after (exec .mapLtrs { k10 with maxOut := 4, outCount := 2, activeTable := .figures })
      (fun t => (t.activeTable, Memory.read t.out 2, t.outCount)) = some (.letters, some 0x00, 3) ∧
    after (exec (.mapChar 16) { k10 with maxOut := 4, outCount := 1, activeTable := .figures })
      (fun t => (t.activeTable, Memory.read t.out 1, t.outCount)) = some (.figures, some 0x35, 2) := by decide

/-- The rows of rule R154's table that a slip in transcription would most easily hit: the first and last of each list. -/
theorem test_tables :
    [1, 5, 8, 11, 17, 24, 29, 30].map (tableByte .letters) = [0x45, 0x53, 0x0D, 0x4A, 0x5A, 0x4F, 0x58, 0x56] ∧
    [1, 5, 8, 11, 17, 24, 29, 30].map (tableByte .figures) = [0x33, 0x07, 0x0D, 0x27, 0x22, 0x39, 0x2F, 0x3B] := by decide

/-! ### The commands: V-C1, V-C2, V-C3, V-C4 -/

/-- Rule R171's example. -/
theorem test_configure_ok :
    after (exec (.configure true 0x40BF400000000000 0x4046B9999999999A) State.reset)
        (fun t => (t.configured, t.spb, t.advBit, t.advStart, t.lookahead)) =
      some (true, 0x40660090319109DB, 176, 264, 1409) ∧
    after (exec (.configure true 0x40BF400000000000 0x4046B9999999999A) State.reset) (fun t => t.rsp) =
      some (some (Response.mk 0 0 0)) := by decide +kernel

/-- V-C1: InvalidConfig with no state change, and the refused configurations. -/
theorem test_configure_errors :
    [(0x0000000000000000, plusOne), (0x8000000000000000, plusOne), (ten, minusOne), (0xFFF0000000000000, plusOne)].map
        (fun c => after (exec (.configure true c.1 c.2) k10) id) =
      List.replicate 4 (some { k10 with rsp := some (Response.mk 0b01 0 0) }) ∧
    [(0x7FF8000000000000, plusOne), (0x7FF0000000000000, plusOne), (0x0000000000000001, 0x7FEFFFFFFFFFFFFF)].map
        (fun c => refusal (exec (.configure true c.1 c.2) k10)) =
      List.replicate 3 (some .configNotAdmitted) := by decide +kernel

/-- R1 of REQIN's response. -/
def reqinAnswer (rate baud : Word) (d : HostInt) : Option Word := (reqinResult rate baud d).map (BitVec.signExtend 64)

/-- V-C2 under K10. -/
theorem test_reqin_k10 :
    [0, 1, 10, 100, 0xFFFFFFFF, 0x7FFFFFFF, 0x80000000].map (reqinAnswer ten plusOne) =
      [some 0, some 74, some 742, some 7420, some 0xFFFFFFFFFFFFFFB6, some 2147483647, some 0xFFFFFFFF80000000] := by
  decide +kernel

/-- V-C2 under 8000/45.45 and 48000/50. -/
theorem test_reqin_real_rates :
    [1, 10, 100].map (reqinAnswer 0x40BF400000000000 0x4046B9999999999A) = [some 1306, some 13060, some 130605] ∧
    [1, 10].map (reqinAnswer 0x40E7700000000000 0x4049000000000000) = [some 7123, some 71232] := by decide +kernel

/-- V-C4 and rule R172's acceptance. -/
theorem test_decode_acceptance :
    after (exec (.decode 100 4) State.reset) (fun t => (t.busy, t.rsp)) = some (false, some (Response.mk 0b10 0 0)) ∧
    after (exec (.reqin 1) State.reset) (fun t => t.rsp) = some (some (Response.mk 0b10 0 0)) ∧
    after (exec (.decode 175 16) { k10 with cursor := 9, outCount := 3 })
      (fun t => (t.busy, t.cursor, t.outCount, t.n, t.maxOut)) = some (true, 0, 0, 175, 16) := by decide

/-- V-C3 and rule R174: configured or not. -/
theorem test_reserved_command :
    after (step (offered State.reset 0x3 0 0)) id = some { State.reset with rsp := some (Response.mk 0b11 0 0) } ∧
    after (step (offered k10 0x5 0x64 0x4)) id = some { k10 with rsp := some (Response.mk 0b11 0 0) } := by decide

/-- V-S3: a DECODE with N = 79 < LOOKAHEAD runs no step and answers OK, 0, 0. -/
theorem test_decode_with_short_input :
    after (step { k10 with busy := true, n := 79, maxOut := 4 }) (fun t => (t.busy, t.rsp)) =
      some (false, some (Response.mk 0 0 0)) := by decide

/-! ### Reset -/

/-- Rule R220: from the hang of V-F7, the reset event leaves the state of rule R221. -/
theorem test_reset_ends_a_hang :
    after (step (hostReset { inDecode .framing 3 5 .figures 3 false with advStart := 0, advBit := 0 }))
      (fun t => (t.configured, decoderOf t, t.busy)) = some (false, (.awaitingStart, 0, 0, .letters), false) := by decide

/-! ### The table words of the host's probe -/

/-- One word of each row of spec/opcode_table.json, `x` bits 0. -/
theorem test_table_words :
    decodeTableWord 4 0b0000 = some .startHit ∧ decodeTableWord 4 0b0001 = some .startMiss ∧
    decodeTableWord 4 0b0100 = some .dataSpace ∧ decodeTableWord 4 0b0101 = some .dataMark ∧
    decodeTableWord 4 0b0110 = some .frameComplete ∧ decodeTableWord 4 0b1000 = some .stopFail ∧
    decodeTableWord 4 0b1001 = some .stopMatch ∧ decodeTableWord 5 0b11011 = some .mapFigs ∧
    decodeTableWord 5 0b11111 = some .mapLtrs ∧ decodeTableWord 64 0x0 = some (.configure false 0 0) ∧
    decodeTableWord 64 0x1 = some (.decode 0 0) ∧ decodeTableWord 64 0x2 = some (.reqin 0) ∧
    decodeTableWord 64 0x3 = some (.reserved 3 0 0) := by decide

/-- The placed instruction is what `fetch` finds, from reset. -/
theorem test_placed_words :
    [(8, 0b0000), (8, 0b0001), (8, 0b0100), (8, 0b0101), (8, 0b0110), (8, 0b1000), (8, 0b1001)].map
        (fun p => fetch (State.reset.withFetchWord p.1 p.2)) =
      [.run .startHit, .run .startMiss, .run .dataSpace, .run .dataMark, .run .frameComplete, .run .stopFail,
        .run .stopMatch] ∧
    fetch (State.reset.withFetchWord 8 27) = .run .stopMatch ∧
    fetch (State.reset.withFetchWord 64 0x1) = .run (.decode 0 0) := by decide

/-! ### Witnesses: what each obligation assumes is met -/

/-- A hang (95_test_vectors.md V-F7): rate 10, baud 20, so ADV_START = ADV_BIT = 0, on a space sample. -/
def hanging : State :=
  { State.reset with
    configured := true, cfgRate := ten, cfgBaud := 0x4034000000000000, cfgPol := true
    spb := 0x3FE0000000000000, advBit := 0, advStart := 0, lookahead := 4
    cursor := 3, n := 14, maxOut := 16, busy := true, win := [(3, minusOne)] }

/-- A DECODE under K10 whose guard fails, at N − c = LOOKAHEAD − 1. -/
def shortOfInput : State := { inDecode .framing 5 3 .letters 85 true with n := 164 }

/-- A DECODE under K10 whose output is full. -/
def outputFull : State := { inDecode .awaitingStart 5 0 .letters 85 true with outCount := 1 }

/-- A DECODE under K10 at the start edge of P1's 'A' frame, sample 20 of its window; the stop sample is sample 85. -/
def frameAhead (stop : Bool) : State :=
  { inDecode .awaitingStart 0 0 .letters 20 false with
    n := 165, win := runs 20 [(false, 10), (true, 20), (false, 30), (stop, 10)] }

theorem witness_ResetEventAbandonsDecode : (hostReset hanging).rst = true ∧ (hostReset hanging).busy = true := by decide

theorem witness_StepRunsTheDecodedInstruction :
    (hanging.rst = false ∧ hanging.busy = true ∧ hanging.StepAllowed ∧ hanging.selector = some 0b0000#4 ∧
      decodeSelector 0b0000#4 = some .startHit) ∧
    ((offered k10 1 175 16).rst = false ∧ (offered k10 1 175 16).busy = false ∧
      (offered k10 1 175 16).cmd = some (Command.mk 1 175 16)) ∧
    (shortOfInput.rst = false ∧ shortOfInput.busy = true ∧ ¬ shortOfInput.StepAllowed) ∧
    (k10.rst = false ∧ k10.busy = false ∧ k10.cmd = none) := by decide

/-- At the boundary of the guard, N − cursor = LOOKAHEAD, in each phase; and `bit_index` at 4 and 5. -/
theorem witness_StepRunsTheKindOfPhaseAndLevel :
    ∀ s ∈ [inDecode .awaitingStart 0 0 .letters 20 true, inDecode .framing 4 3 .letters 75 false,
        inDecode .framing 5 3 .letters 85 true, inDecode .awaitingStop 5 3 .figures 85 true],
      s.rst = false ∧ s.Running ∧ s.cursor.toNat < s.n.toNat ∧ s.n.toNat - s.cursor.toNat = s.lookahead.toNat := by decide

theorem witness_DecodeGivesBackTheEncodedInstruction :
    ∀ i ∈ [Instr.startHit, .mapChar 26, .mapChar 28, .configure true ten plusOne, .decode 0xFFFFFFFF 0,
        .reqin 0x80000000, .reserved 0x1 0x100000000 0], wellFormed i = true := by decide

theorem witness_DecodedInstructionsAreWellFormed :
    decodeEncoded (.selector 0b0111#4) = .ok .frameComplete ∧ decodeEncoded (.code 26#5) = .ok (.mapChar 26#5) ∧
    decodeEncoded (.command 0x2 0x80000000 0) = .ok (.reserved 0x2 0x80000000 0) := by
  refine ⟨?_, ?_, ?_⟩ <;> rfl

theorem witness_ReservedWordsAreAnsweredReservedCommand :
    ∀ s ∈ [offered State.reset 0x5 0x64 0x4, offered k10 0x5 0x64 0x4],
      s.rst = false ∧ s.busy = false ∧ s.cmd = some (Command.mk 0x5 0x64 0x4) ∧ reservedWords 0x5 0x64 0x4 = true := by
  decide

theorem witness_StartHitEntersFraming :
    let s := inDecode .awaitingStart 0 0 .letters 20 false
    s.Running ∧ s.phase = .awaitingStart ∧ s.cursor.toNat < s.n.toNat ∧ s.levelAt s.cursor.toNat = false := by decide

theorem witness_StartMissAdvancesOneSample :
    let s := inDecode .awaitingStart 0 0 .letters 7 true
    s.Running ∧ s.phase = .awaitingStart ∧ s.cursor.toNat < s.n.toNat ∧ s.levelAt s.cursor.toNat = true := by decide

/-- At both ends of `bit_index`'s range. -/
theorem witness_DataMarkSetsOneBit :
    ∀ s ∈ [inDecode .framing 0 0 .letters 35 true, inDecode .framing 4 3 .letters 75 true],
      s.Running ∧ s.phase = .framing ∧ s.bitIndex.val ≤ 4 ∧ s.cursor.toNat < s.n.toNat ∧
      s.levelAt s.cursor.toNat = true := by decide

theorem witness_DataSpaceSetsNoBit :
    ∀ s ∈ [inDecode .framing 0 0 .letters 35 false, inDecode .framing 4 3 .letters 75 false],
      s.Running ∧ s.phase = .framing ∧ s.bitIndex.val ≤ 4 ∧ s.cursor.toNat < s.n.toNat ∧
      s.levelAt s.cursor.toNat = false := by decide

theorem witness_FrameCompleteMovesNoCursor :
    let s := inDecode .framing 5 3 .letters 85 true
    s.Running ∧ s.phase = .framing ∧ s.bitIndex = 5 := by decide

theorem witness_StopFailDropsTheFrame :
    let s := inDecode .awaitingStop 5 27 .letters 70 false
    s.Running ∧ s.phase = .awaitingStop ∧ s.cursor.toNat < s.n.toNat ∧ s.levelAt s.cursor.toNat = false := by decide

theorem witness_StopMatchEmitsOneByte :
    ∀ s ∈ [inDecode .awaitingStop 5 27 .letters 85 true, inDecode .awaitingStop 5 31 .figures 85 true,
        inDecode .awaitingStop 5 3 .letters 85 true],
      s.Running ∧ s.phase = .awaitingStop ∧ s.cursor.toNat < s.n.toNat ∧ s.levelAt s.cursor.toNat = true := by decide

theorem witness_StopMatchRunsTheDecodedMapperOperation :
    let s := inDecode .awaitingStop 5 27 .letters 85 true
    s.Running ∧ s.phase = .awaitingStop ∧ s.cursor.toNat < s.n.toNat ∧ s.levelAt s.cursor.toNat = true ∧
      ∃ t, exec (decodeMapper s.accumulator) s = .next t := by
  refine ⟨by decide, by decide, by decide, by decide, _, rfl⟩

/-- Every step kind answers a next state somewhere: the hypotheses of `StepKindsNeedTheirGuardAndPhase` and of the frames. -/
theorem witness_StepKindsNeedTheirGuardAndPhase :
    (∃ t, exec .startHit (inDecode .awaitingStart 0 0 .letters 20 false) = .next t) ∧
    (∃ t, exec .startMiss (inDecode .awaitingStart 0 0 .letters 7 true) = .next t) ∧
    (∃ t, exec .dataMark (inDecode .framing 4 3 .letters 75 true) = .next t) ∧
    (∃ t, exec .dataSpace (inDecode .framing 0 0 .letters 35 false) = .next t) ∧
    (∃ t, exec .frameComplete (inDecode .framing 5 3 .letters 85 true) = .next t) ∧
    (∃ t, exec .stopMatch (inDecode .awaitingStop 5 3 .letters 85 true) = .next t) ∧
    (∃ t, exec .stopFail (inDecode .awaitingStop 5 3 .letters 85 false) = .next t) :=
  ⟨⟨_, rfl⟩, ⟨_, rfl⟩, ⟨_, rfl⟩, ⟨_, rfl⟩, ⟨_, rfl⟩, ⟨_, rfl⟩, ⟨_, rfl⟩⟩

/-- A state for each clause: busy; idle; output full; a cursor at N with LOOKAHEAD 0, in each phase. -/
theorem witness_StopsNameTheirReason :
    hanging.busy = true ∧ ¬ k10.Running ∧ outputFull.maxOut.toNat ≤ outputFull.outCount.toNat ∧
    ∀ ph ∈ [Phase.awaitingStart, .framing, .awaitingStop],
      let s := { inDecode ph 0 0 .letters 80 true with n := 80, lookahead := 0 }
      s.Running ∧ s.n.toNat ≤ s.cursor.toNat ∧ s.phase = ph := by decide

theorem witness_MapFigsSelectsFiguresAndAppendsNull :
    (inDecode .awaitingStop 5 27 .letters 85 true).outCount.toNat <
      (inDecode .awaitingStop 5 27 .letters 85 true).maxOut.toNat := by decide

theorem witness_MapLtrsSelectsLettersAndAppendsNull :
    (inDecode .awaitingStop 5 31 .figures 85 true).outCount.toNat <
      (inDecode .awaitingStop 5 31 .figures 85 true).maxOut.toNat := by decide

theorem witness_MapCharAppendsTheActiveTablesEntry :
    (26#5 : Code) ≠ 27#5 ∧ (26#5 : Code) ≠ 31#5 ∧
    (inDecode .awaitingStop 5 26 .letters 85 true).outCount.toNat <
      (inDecode .awaitingStop 5 26 .letters 85 true).maxOut.toNat := by decide

/-- Admitted configurations: K10, 8000/45.45, ADV_START = 0 (10/20), and the greatest LOOKAHEAD, 2^32 − 1. -/
theorem witness_AdvancesFitInTheLookahead :
    [(ten, plusOne), (0x40BF400000000000, 0x4046B9999999999A), (ten, 0x4034000000000000),
        (0x41BFFFFFFFE00000, plusOne)].all (fun c => !invalidRates c.1 c.2 && admitted c.1 c.2) = true := by decide +kernel

theorem witness_EightTimesSpbIsExact :
    invalidRates 0x40BF400000000000 0x4046B9999999999A = false ∧ admitted 0x40BF400000000000 0x4046B9999999999A = true := by
  decide +kernel

theorem witness_ConfigureConstructsTheDecoder :
    k10.busy = false ∧ invalidRates 0x41BFFFFFFFE00000 plusOne = false ∧ admitted 0x41BFFFFFFFE00000 plusOne = true := by
  decide +kernel

/-- Each way of the comparison `<= 0`: +0.0, −0.0, the smallest negative subnormal and −∞, at either operand. -/
theorem witness_ConfigureRejectsNonPositiveRates :
    k10.busy = false ∧
    [0x0000000000000000, 0x8000000000000000, 0x8000000000000001, 0xFFF0000000000000].all
      (fun w => !f64IsNaN w && (f64IsZero w || f64Sign w)) = true := by decide +kernel

/-- A NaN, an infinity, an SPB that underflows, and LOOKAHEAD = 2^32. -/
theorem witness_ConfigureRefusesWhatIsNotAdmitted :
    k10.busy = false ∧
    [(0x7FF8000000000000, plusOne), (0x7FF0000000000000, plusOne), (0x0000000000000001, 0x7FEFFFFFFFFFFFFF),
        (0x41C0000000000000, plusOne)].all (fun c => !invalidRates c.1 c.2 && !admitted c.1 c.2) = true := by
  decide +kernel

theorem witness_DecodeLatchesItsOperands : k10.busy = false ∧ k10.configured = true := by decide

theorem witness_DecodeAndReqinNeedAConfiguration : State.reset.busy = false ∧ State.reset.configured = false := by decide

theorem witness_ReqinAnswersTheTruncatedQuotient :
    k10.busy = false ∧ k10.configured = true ∧ invalidRates k10.cfgRate k10.cfgBaud = false ∧
    admitted k10.cfgRate k10.cfgBaud = true := by decide +kernel

/-- Each sign of the argument, at the ends of its range. -/
theorem witness_ReqinSignFollowsItsArgument :
    invalidRates ten plusOne = false ∧ admitted ten plusOne = true ∧
    reqinResult ten plusOne 0 = some 0 ∧ reqinResult ten plusOne 0x80000000 = some 0x80000000 ∧
    reqinResult ten plusOne 0x7FFFFFFF = some 0x7FFFFFFF := by decide +kernel

theorem witness_ReservedIsAnsweredInAnyState : State.reset.busy = false ∧ k10.busy = false := by decide

theorem witness_SilentStepKindsFrame :
    (∃ t, exec .startHit (inDecode .awaitingStart 0 0 .letters 20 false) = .next t) ∧
    (∃ t, exec .startMiss (inDecode .awaitingStart 0 0 .letters 7 true) = .next t) ∧
    (∃ t, exec .dataMark (inDecode .framing 4 3 .letters 75 true) = .next t) ∧
    (∃ t, exec .dataSpace (inDecode .framing 0 0 .letters 35 false) = .next t) ∧
    (∃ t, exec .frameComplete (inDecode .framing 5 3 .letters 85 true) = .next t) ∧
    (∃ t, exec .stopFail (inDecode .awaitingStop 5 3 .letters 85 false) = .next t) :=
  ⟨⟨_, rfl⟩, ⟨_, rfl⟩, ⟨_, rfl⟩, ⟨_, rfl⟩, ⟨_, rfl⟩, ⟨_, rfl⟩⟩

theorem witness_EmittingInstructionsFrame :
    (∃ t, exec .stopMatch (inDecode .awaitingStop 5 3 .letters 85 true) = .next t) ∧
    (∃ t, exec .mapFigs (inDecode .awaitingStop 5 27 .letters 85 true) = .next t) ∧
    (∃ t, exec .mapLtrs (inDecode .awaitingStop 5 31 .letters 85 true) = .next t) ∧
    (∃ t, exec (.mapChar 3) (inDecode .awaitingStop 5 3 .letters 85 true) = .next t) :=
  ⟨⟨_, rfl⟩, ⟨_, rfl⟩, ⟨_, rfl⟩, ⟨_, rfl⟩⟩

/-- What a next state needs of CONFIGURE and REQIN, whose arithmetic only the kernel evaluates. -/
theorem answers_next {r : Result} (h : after r (fun _ => true) = some true) : ∃ t, r = .next t := by
  cases r with
  | next t => exact ⟨t, rfl⟩
  | fault f => nomatch f
  | refused f => cases h

theorem witness_CommandsFrame :
    (∃ t, exec (.configure true ten plusOne) k10 = .next t) ∧ (∃ t, exec (.decode 175 16) k10 = .next t) ∧
    (∃ t, exec (.reqin 10) k10 = .next t) ∧ (∃ t, exec (.reserved 3 0 0) k10 = .next t) :=
  ⟨answers_next (by decide +kernel), ⟨_, rfl⟩, answers_next (by decide +kernel), ⟨_, rfl⟩⟩

theorem witness_ErrorResponsesChangeNoState :
    ∃ t r, exec (.decode 100 4) (offered State.reset 1 100 4) = .next t ∧ t.cmd ≠ (offered State.reset 1 100 4).cmd ∧
      t.rsp = some r ∧ r.r0 ≠ 0 :=
  ⟨_, _, rfl, by decide, rfl, by decide⟩

/-- A successful CONFIGURE by `step`: `configured` rises and the configuration group changes. -/
theorem witness_OnlyConfigureSetsAndResetClearsConfigured :
    (∃ t, step (offered State.reset 4 ten plusOne) = .next t ∧ t.configured = true) ∧
    (∃ t, step (hostReset k10) = .next t ∧ t.configured = false) := by
  refine ⟨?_, _, rfl, rfl⟩
  have h : after (step (offered State.reset 4 ten plusOne)) (fun t => t.configured) = some true := by decide +kernel
  revert h
  cases step (offered State.reset 4 ten plusOne) with
  | next t => exact fun h => ⟨t, rfl, Option.some.inj h⟩
  | fault f => nomatch f
  | refused f => exact fun h => by cases h

theorem witness_OnlyConfigureAndResetWriteTheConfiguration :
    ∃ t, step (hostReset k10) = .next t ∧ ¬ k10.SameConfig t ∧ (hostReset k10).SameConfig k10 :=
  ⟨_, rfl, by decide, by decide⟩

theorem witness_OnlyShiftCodesConfigureAndResetWriteTheTable :
    (∃ t, step (inDecode .awaitingStop 5 27 .letters 85 true) = .next t ∧ t.activeTable ≠ .letters) ∧
    (∃ t, step (inDecode .awaitingStop 5 31 .figures 85 true) = .next t ∧ t.activeTable ≠ .figures) ∧
    (∃ t, step (hostReset { k10 with activeTable := .figures }) = .next t ∧ t.activeTable ≠ .figures) :=
  ⟨⟨_, rfl, by decide⟩, ⟨_, rfl, by decide⟩, ⟨_, rfl, by decide⟩⟩

theorem witness_OnlyStopMatchWritesOutput :
    ∃ t, step (inDecode .awaitingStop 5 3 .letters 85 true) = .next t ∧
      t.out ≠ (inDecode .awaitingStop 5 3 .letters 85 true).out :=
  ⟨_, rfl, List.cons_ne_nil _ _⟩

theorem witness_BusyHoldsFromAcceptanceToResponse :
    (∃ t, step (offered k10 1 175 16) = .next t ∧ t.busy = true) ∧
    (∃ t, step shortOfInput = .next t ∧ t.busy = false) ∧ (∃ t, step (hostReset hanging) = .next t ∧ t.busy = false) :=
  ⟨⟨_, rfl, rfl⟩, ⟨_, rfl, rfl⟩, ⟨_, rfl, rfl⟩⟩

/-- A state on each edge of the transition graph. -/
theorem witness_PhaseMovesOnlyAlongTheTransitionGraph :
    ∀ c ∈ [(inDecode .awaitingStart 0 0 .letters 7 true, Instr.startMiss),
        (inDecode .awaitingStart 0 0 .letters 7 false, .startHit), (inDecode .framing 4 3 .letters 7 true, .dataMark),
        (inDecode .framing 5 3 .letters 7 true, .frameComplete), (inDecode .awaitingStop 5 3 .letters 7 true, .stopMatch),
        (inDecode .awaitingStop 5 3 .letters 7 false, .stopFail)],
      c.1.busy = true ∧ fetch c.1 = .run c.2 ∧ after (step c.1) (fun _ => true) = some true := by decide

/-- States that keep the invariant: idle, inside a frame, at the stop test, and hanging. -/
theorem witness_StepKeepsTheInvariant :
    ∀ s ∈ [k10, inDecode .framing 2 3 .letters 55 true, inDecode .awaitingStop 5 3 .figures 85 true, hanging],
      s.Inv ∧ after (step s) (fun _ => true) = some true := by decide +kernel

theorem witness_InvariantStatesNeverStop :
    hanging.Inv ∧ (offered k10 4 0x7FF8000000000000 plusOne).Inv ∧
    refusal (step (offered k10 4 0x7FF8000000000000 plusOne)) = some .configNotAdmitted := by decide +kernel

theorem witness_CursorAdvancesForwardWithinTheWindow :
    (inDecode .awaitingStart 0 0 .letters 20 false).Inv ∧ (inDecode .awaitingStart 0 0 .letters 20 false).busy = true ∧
    fetch (inDecode .awaitingStart 0 0 .letters 20 false) = .run .startHit ∧
    after (step (inDecode .awaitingStart 0 0 .letters 20 false)) (fun t => t.cursor) = some 35 := by decide +kernel

/-- At the boundary of the bound: a START_HIT at cursor N − LOOKAHEAD. -/
theorem witness_CursorEndsWithinTheConsumedBound :
    (inDecode .awaitingStart 0 0 .letters 95 false).Inv ∧ (inDecode .awaitingStart 0 0 .letters 95 false).busy = true ∧
    fetch (inDecode .awaitingStart 0 0 .letters 95 false) = .run .startHit ∧
    after (step (inDecode .awaitingStart 0 0 .letters 95 false)) (fun t => t.cursor) = some 110 := by decide +kernel

theorem witness_FailedStopRetriggersAtTheSameSample :
    let s := inDecode .awaitingStop 5 0 .letters 70 false
    s.rst = false ∧ s.Running ∧ s.phase = .awaitingStop ∧ s.cursor.toNat < s.n.toNat ∧
    s.levelAt s.cursor.toNat = false := by decide

theorem witness_DecodeEndsFullOrShortOfInput :
    ∀ s ∈ [shortOfInput, outputFull], s.Inv ∧ s.rst = false ∧ s.busy = true ∧ ¬ s.StepAllowed := by decide +kernel

theorem witness_HostMovesKeepTheInvariant :
    k10.Inv ∧ (hostOffer (Command.mk 1 175 16) k10).isSome = true ∧ (hostWriteWindow 0 plusOne k10).isSome = true ∧
    (hostPresentWindow [plusOne, minusOne] k10).isSome = true ∧ (hostWriteOut 0 0x41 k10).isSome = true ∧
    (hostTakeResponse { k10 with rsp := some (Response.mk 0 0 0) }).isSome = true := by decide +kernel

theorem witness_ZeroStartAdvanceHangs :
    hanging.rst = false ∧ hanging.Running ∧ hanging.advStart = 0 ∧ hanging.advBit = 0 ∧ hanging.phase = .awaitingStart ∧
    hanging.cursor.toNat < hanging.n.toNat ∧ hanging.levelAt hanging.cursor.toNat = false := by decide

/-- The failed frame of V-F2 and its eight steps from the start edge at 5: a guard that holds throughout. -/
def spaceRun : State := { inDecode .awaitingStart 0 0 .letters 5 false with n := 175, maxOut := 16 }

/-- The eight steps of `spaceRun`, one by one. -/
def spaceRunAt : Nat → State
  | 0 => spaceRun
  | 1 => { spaceRun with phase := .framing, cursor := 20 }
  | 2 => { spaceRun with phase := .framing, cursor := 30, bitIndex := 1 }
  | 3 => { spaceRun with phase := .framing, cursor := 40, bitIndex := 2 }
  | 4 => { spaceRun with phase := .framing, cursor := 50, bitIndex := 3 }
  | 5 => { spaceRun with phase := .framing, cursor := 60, bitIndex := 4 }
  | 6 => { spaceRun with phase := .framing, cursor := 70, bitIndex := 5 }
  | 7 => { spaceRun with phase := .awaitingStop, cursor := 70, bitIndex := 5 }
  | _ => { spaceRun with phase := .awaitingStart, cursor := 70, bitIndex := 5 }

theorem spaceRun_step (k : Nat) (hk : k < 8) : step (spaceRunAt k) = .next (spaceRunAt (k + 1)) := by
  interval_cases k <;> rfl

theorem spaceRun_run (j k : Nat) (hk : j + k ≤ 8) :
    Host.Core.run Sys2Proof.core j (spaceRunAt k) = .next (spaceRunAt (k + j)) := by
  induction j generalizing k with
  | zero => rfl
  | succ j ih =>
    rw [run_succ (spaceRun_step k (by omega)), ih (k + 1) (by omega), Nat.add_right_comm, Nat.add_assoc]

theorem witness_EightStepsAdvanceTheCursor :
    spaceRun.Inv ∧ spaceRun.busy = true ∧ 1 ≤ spaceRun.advStart.toNat ∧
    (∀ k u, k < 8 → Host.Core.run Sys2Proof.core k spaceRun = .next u → ∃ i, fetch u = .run i) ∧
    Host.Core.run Sys2Proof.core 8 spaceRun = .next (spaceRunAt 8) := by
  refine ⟨by decide +kernel, rfl, by decide, fun k u hk hu => ?_, spaceRun_run 8 0 (by omega)⟩
  have hr := spaceRun_run k 0 (by omega)
  rw [Nat.zero_add] at hr
  cases hr.symm.trans hu
  interval_cases k <;> exact ⟨_, rfl⟩

theorem witness_DecodeTerminatesWhenStartAdvances :
    spaceRun.Inv ∧ spaceRun.rst = false ∧ spaceRun.busy = true ∧ 1 ≤ spaceRun.advStart.toNat := by decide +kernel

/-- The 'A' frame of V-F1 from sample 20, and the same frame with a stop sample at space. -/
theorem witness_FrameIsDecodedFromItsSamplingPositions :
    (∀ s ∈ [frameAhead true, frameAhead false],
      s.rst = false ∧ s.busy = true ∧ s.phase = .awaitingStart ∧ s.outCount.toNat < s.maxOut.toNat ∧
      1 ≤ s.lookahead.toNat ∧ s.frameIndex 5 + s.lookahead.toNat ≤ s.n.toNat ∧ s.levelAt s.cursor.toNat = false) ∧
    (frameAhead true).levelAt ((frameAhead true).frameIndex 5) = true ∧
    (frameAhead false).levelAt ((frameAhead false).frameIndex 5) = false ∧ (frameAhead true).frameCode = 3 := by
  decide +kernel

/-- V-S4: N = 84 with the start edge at 5, N − 5 = LOOKAHEAD − 1. -/
theorem witness_FrameNearTheWindowsEndIsDeferred :
    let s := { inDecode .awaitingStart 0 0 .letters 0 true with n := 84, win := runs 0 [(true, 5), (false, 10), (true, 69)] }
    s.Inv ∧ s.rst = false ∧ s.busy = true ∧ s.phase = .awaitingStart ∧ s.outCount.toNat < s.maxOut.toNat ∧
    s.cursor.toNat ≤ 5 ∧ s.n.toNat < 5 + s.lookahead.toNat ∧
    ∀ i, s.cursor.toNat ≤ i → i < 5 → s.levelAt i = true := by
  refine ⟨by decide +kernel, rfl, rfl, rfl, by decide, by decide, by decide, fun i _ h => ?_⟩
  revert i
  decide

/-- Two calls over one stream, the second 20 samples and no byte further on. -/
theorem witness_ResumedDecodeRunsTheSameSteps :
    let s := inDecode .awaitingStart 0 0 .letters 20 false
    let t := inDecode .awaitingStart 0 0 .letters 0 false
    s.Inv ∧ t.Inv ∧ s.rst = false ∧ s.busy = true ∧ s.Resumes 20 0 t ∧ fetch s = .run .startHit ∧
    ∃ s', step s = .next s' := by
  refine ⟨by decide +kernel, by decide +kernel, rfl, rfl,
    ⟨by decide, by decide, rfl, rfl, by decide, by decide, by decide, by decide, fun i => ?_, fun i h => ?_⟩, rfl, _, rfl⟩
  · cases i with
    | zero => rfl
    | succ i =>
      have h : ¬ 20 = i + 1 + 20 := by omega
      show Window.unlisted = (if 20 = i + 1 + 20 then some (level false) else none).getD Window.unlisted
      rw [if_neg h]
      rfl
  · exact absurd h (Nat.not_lt_zero i)

end Sys2Proof.Tests
end

/-! ## What one step does, case by case

`step_next` and the inversion lemmas of the instructions in one form, from which the whole-machine rules are read off. -/

namespace Sys2Proof.Machine

/-- The transitions of the core: the reset event, a step kind inside a DECODE, the end of the DECODE loop, a successful
CONFIGURE, an accepted DECODE, a command that is only answered, and waiting. -/
inductive Transition (s : State) : State → Prop where
  | reset (hr : s.rst = true) : Transition s (takeReset s)
  | stepKind {i : Instr} {t : State} (hb : s.busy = true) (hf : fetch s = .run i) (hs : step s = .next t) : Transition s t
  | loopEnd (hf : fetch s = .loopEnd) : Transition s (endDecode s)
  | configure (pol : Bool) (rate baud : Word) (hb : s.busy = false) (hf : fetch s = .run (.configure pol rate baud))
      (hi : invalidRates rate baud = false) (ha : admitted rate baud = true) :
      Transition s (respond .ok 0 0 (construct (setConfig pol rate baud s)))
  | decode (n m : Index) (hb : s.busy = false) (hf : fetch s = .run (.decode n m)) (hc : s.configured = true) :
      Transition s (startDecode n m s)
  | answer (st : Status) (r1 r2 : Word) (hb : s.busy = false) : Transition s (respond st r1 r2 s)
  | wait : Transition s s

/-- A command that an idle core runs is a transition. -/
theorem transition_of_command {s t : State} {i : Instr} (hb : s.busy = false) (hf : fetch s = .run i)
    (he : exec i s = .next t) : Transition s t := by
  rcases fetch_run_idle hb hf with ⟨pol, rate, baud, rfl⟩ | ⟨n, m, rfl⟩ | ⟨d, rfl⟩ | ⟨w0, w1, w2, rfl⟩
  · obtain ⟨-, ⟨-, rfl⟩ | ⟨hi, ha, rfl⟩⟩ := execConfigure_next he
    · exact .answer _ _ _ hb
    · exact .configure pol rate baud hb hf hi ha
  · obtain ⟨-, ⟨hc, rfl⟩ | ⟨-, rfl⟩⟩ := execDecode_next he
    · exact .decode n m hb hf hc
    · exact .answer _ _ _ hb
  · obtain ⟨-, ⟨-, v, -, rfl⟩ | ⟨-, rfl⟩⟩ := execReqin_next he
    · exact .answer _ _ _ hb
    · exact .answer _ _ _ hb
  · obtain ⟨-, rfl⟩ := execReserved_next he
    exact .answer _ _ _ hb

/-- Every step that answers a next state is a transition. -/
theorem step_transition {s t : State} (h : step s = .next t) : Transition s t := by
  rcases step_next h with ⟨hf, rfl⟩ | ⟨i, hf, he⟩ | ⟨hf, rfl⟩ | ⟨-, rfl⟩
  · exact .reset (rst_of_fetch hf)
  · cases hb : s.busy
    · exact transition_of_command hb hf he
    · exact .stepKind hb hf h
  · exact .loopEnd hf
  · exact .wait

/-- `tableAfter` moves the alphabet only on a shift code. -/
theorem tableAfter_ne {code : Code} {table : Table} (h : tableAfter code table ≠ table) :
    (code = 27#5 ∧ tableAfter code table = .figures) ∨ (code = 31#5 ∧ tableAfter code table = .letters) := by
  unfold tableAfter at h ⊢
  split_ifs at h ⊢ with h27 h31
  · exact .inl ⟨h27, rfl⟩
  · exact .inr ⟨h31, rfl⟩
  · exact absurd rfl h

/-- Of the step kinds only STOP_MATCH can move the alphabet, to the one in force after its code. -/
theorem activeTable_of_stepKind {s t : State} {i : Instr} (hi : Fetch.IsStep i) (he : exec i s = .next t) :
    t.activeTable = s.activeTable ∨ (i = .stopMatch ∧ t.activeTable = tableAfter s.accumulator s.activeTable) := by
  rcases hi with rfl | rfl | rfl | rfl | rfl | rfl | rfl
  · obtain ⟨-, -, -, rfl⟩ := execStartHit_next he
    exact .inl rfl
  · obtain ⟨-, -, -, rfl⟩ := execStartMiss_next he
    exact .inl rfl
  · obtain ⟨-, -, -, -, rfl⟩ := execDataSpace_next he
    exact .inl rfl
  · obtain ⟨-, -, -, -, rfl⟩ := execDataMark_next he
    exact .inl rfl
  · obtain ⟨-, -, -, rfl⟩ := execFrameComplete_next he
    exact .inl rfl
  · obtain ⟨-, -, -, rfl⟩ := execStopFail_next he
    exact .inl rfl
  · obtain ⟨-, -, -, rfl⟩ := execStopMatch_next he
    exact .inr ⟨rfl, rfl⟩

/-- Settles O40: of the transitions, all but the reset event and a successful CONFIGURE keep the configuration group. -/
theorem onlyConfigureAndResetWriteTheConfiguration : Obligations.OnlyConfigureAndResetWriteTheConfiguration := by
  intro s t h hne
  cases step_transition h with
  | reset hr => exact .inl hr
  | stepKind hb hf hs =>
    obtain ⟨-, hsame, -⟩ := step_busy_keeps hb hf hs
    exact absurd hsame hne
  | configure pol rate baud _ hf hi ha => exact .inr ⟨pol, rate, baud, hf, hi, ha⟩
  | loopEnd | decode | answer | wait => simp [State.SameConfig] at hne

/-- Settles O39: of the transitions, a successful CONFIGURE alone raises `configured`, the reset event alone clears it, and
the others keep it. -/
theorem onlyConfigureSetsAndResetClearsConfigured : Obligations.OnlyConfigureSetsAndResetClearsConfigured := by
  intro s t h
  cases step_transition h with
  | reset hr => exact ⟨fun _ ht => absurd ht Bool.false_ne_true, fun _ _ => hr⟩
  | configure pol rate baud _ hf hi ha => simp [hf, hi, ha]
  | stepKind hb hf hs =>
    obtain ⟨-, ⟨hkeep, -⟩, -⟩ := step_busy_keeps hb hf hs
    cases hc : s.configured <;> simp [hkeep, hc]
  | loopEnd | decode | answer | wait => cases hc : s.configured <;> simp [hc]

/-- Settles O41: of the transitions, the reset event, a successful CONFIGURE and the step kinds can write the alphabet, and
of the step kinds STOP_MATCH alone, on the codes at which `tableAfter` moves. -/
theorem onlyShiftCodesConfigureAndResetWriteTheTable : Obligations.OnlyShiftCodesConfigureAndResetWriteTheTable := by
  intro s t h hne
  cases step_transition h with
  | reset hr => exact .inl hr
  | stepKind hb hf hs =>
    obtain ⟨hi, he⟩ := step_busy_run hb hf hs
    rcases activeTable_of_stepKind hi he with heq | ⟨rfl, heq⟩
    · exact absurd heq hne
    · rw [heq] at hne ⊢
      rcases tableAfter_ne hne with ⟨h27, ht⟩ | ⟨h31, ht⟩
      · exact .inr (.inl ⟨hf, h27, ht⟩)
      · exact .inr (.inr (.inl ⟨hf, h31, ht⟩))
  | configure pol rate baud _ hf hi ha => exact .inr (.inr (.inr ⟨pol, rate, baud, hf, hi, ha⟩))
  | loopEnd | decode | answer | wait => exact absurd rfl hne

/-- Settles O43: a DECODE that is accepted raises busy, the loop's end and the reset event clear it, and the other
transitions keep it, the step kinds because they run inside a DECODE. -/
theorem busyHoldsFromAcceptanceToResponse : Obligations.BusyHoldsFromAcceptanceToResponse := by
  intro s t h
  cases step_transition h with
  | reset hr => exact ⟨fun _ ht => absurd ht Bool.false_ne_true, fun _ _ => .inl hr⟩
  | stepKind hb hf hs =>
    obtain ⟨ht, -⟩ := step_busy_keeps hb hf hs
    simp [hb, ht]
  | loopEnd hf => simp [hf]
  | decode n m hb hf hc => simp [hb, hf, hc]
  | configure _ _ _ hb => simp [hb]
  | answer _ _ _ hb => simp [hb]
  | wait => cases hb : s.busy <;> simp

end Sys2Proof.Machine

/-! ## The derived constants fit in the look-ahead

40_sampler.md rule R107, as far as the invariant needs it. Both sides are roundings of multiples of SPB, so the comparison
of the products carries over to the constants because rounding, `floor` and `ceil` are monotone. -/

namespace Sys2Proof.Machine

/-- A floor is at most the ceiling of a magnitude that is no smaller. -/
theorem f64Floor_le_f64Ceil {a b : Word} (h : f64Mag a ≤ f64Mag b) : f64Floor a ≤ f64Ceil b :=
  Nat.div_le_div_right (h.trans (Nat.le_add_right _ _))

/-- The magnitude of the product of two finite words that are not negative. -/
theorem f64Mag_fl64Mul {a b : Word} (ha : f64IsFinite a = true) (hb : f64IsFinite b = true) (sa : f64Sign a = false)
    (sb : f64Sign b = false) : f64Mag (fl64Mul a b) = magOfBits (roundRatio (f64Mag a * f64Mag b) f64One) := by
  rw [fl64Mul_of_finite ha hb sa sb, f64Mag_pack false roundRatio_lt]

theorem f64Mag_startProduct {spb : Word} (h : PosFin spb) :
    f64Mag (startProduct spb) = magOfBits (roundRatio (f64Mag 0x3FF8000000000000 * f64Mag spb) f64One) :=
  f64Mag_fl64Mul rfl h.fin rfl (sign_of_pos h.pos)

theorem f64Mag_lookaheadProduct {spb : Word} (h : PosFin spb) :
    f64Mag (lookaheadProduct spb) = magOfBits (roundRatio (8 * f64One * f64Mag spb) f64One) := by
  rw [← f64Mag_eight]
  exact f64Mag_fl64Mul rfl h.fin rfl (sign_of_pos h.pos)

/-- SPB, which is its own rounding, is at most the rounding of 8 × SPB. -/
theorem advBitOf_le_lookaheadOf {spb : Word} (h : PosFin spb) : advBitOf spb ≤ lookaheadOf spb := by
  refine f64Floor_le_f64Ceil ?_
  have hself : magOfBits (roundRatio (f64Mag spb) 1) = f64Mag spb := by
    rw [roundRatio_f64Mag h, f64Mag_eq, Nat.mod_eq_of_lt (toNat_lt_of_pos h.pos)]
  rw [f64Mag_lookaheadProduct h, ← hself]
  exact magOfBits_mono (roundRatio_mono Nat.one_pos f64One_pos (by rw [hself]; nlinarith))

/-- The rounding of 1.5 × SPB is at most the rounding of 8 × SPB. -/
theorem advStartOf_le_lookaheadOf {spb : Word} (h : PosFin spb) : advStartOf spb ≤ lookaheadOf spb := by
  refine f64Floor_le_f64Ceil ?_
  have hle : f64Mag 0x3FF8000000000000 ≤ 8 * f64One := by
    have := f64Mag_threeHalves
    omega
  rw [f64Mag_startProduct h, f64Mag_lookaheadProduct h]
  exact magOfBits_mono (roundRatio_mono f64One_pos f64One_pos
    (Nat.mul_le_mul_right _ (Nat.mul_le_mul_right _ hle)))

/-- A number below 2^W_IDX survives as an index. -/
theorem Index.toNat_ofNat {k : Nat} (h : k < 2 ^ Config.wIdx) : (BitVec.ofNat Config.wIdx k).toNat = k := by
  rw [BitVec.toNat_ofNat, Nat.mod_eq_of_lt h]

/-- The three constants of an admitted configuration are indices. -/
theorem derived_lt_of_admitted {rate baud : Word} (ha : admitted rate baud = true) :
    advBitOf (spbOf rate baud) < 2 ^ Config.wIdx ∧ advStartOf (spbOf rate baud) < 2 ^ Config.wIdx ∧
    lookaheadOf (spbOf rate baud) < 2 ^ Config.wIdx := by
  obtain ⟨-, -, hspb, -, hlook⟩ := admitted_parts ha
  have hbit := advBitOf_le_lookaheadOf hspb
  have hstart := advStartOf_le_lookaheadOf hspb
  simp only [Config.wIdx]
  omega

/-! ### In a state that keeps the invariant -/

/-- Both advances of a configured core are at most its LOOKAHEAD. -/
theorem State.ConfigInv.advances_le {s : State} (h : s.ConfigInv) (hc : s.configured = true) :
    s.advBit.toNat ≤ s.lookahead.toNat ∧ s.advStart.toNat ≤ s.lookahead.toNat := by
  obtain ⟨-, ha, hspb, hbit, hstart, hlook⟩ := h hc
  obtain ⟨-, -, hpos, -⟩ := admitted_parts ha
  rw [← hspb] at hpos
  rw [hbit, hstart, hlook]
  exact ⟨advBitOf_le_lookaheadOf hpos, advStartOf_le_lookaheadOf hpos⟩

/-- Where the guard holds, an advance of at most LOOKAHEAD stays within N. -/
theorem cursor_add_le {s : State} {k : Index} (ha : s.StepAllowed) (hk : k.toNat ≤ s.lookahead.toNat) :
    (s.cursor + k).toNat ≤ s.n.toNat := by
  have hle : s.cursor.toNat + k.toNat ≤ s.n.toNat := (Nat.add_le_add_left hk _).trans ha.2
  rw [cursor_add hle]
  exact hle

end Sys2Proof.Machine

/-! ## The invariant

Each transition keeps `State.Inv`. The parts it does not touch are those of the state before, so a proof below argues only
for what its transition writes. -/

namespace Sys2Proof.Machine

/-- Settles O2: the reset state is not configured and not busy, it is in AwaitingStart with an empty accumulator, and its
memories list nothing. -/
theorem resetStateKeepsInvariant : Obligations.ResetStateKeepsInvariant :=
  ⟨nofun, nofun, ⟨fun _ => rfl, nofun, nofun⟩, reset_memory_wf⟩

/-! ### The accumulator -/

/-- What has no bit at or above `k` has none at or above `k + 1`. -/
theorem code_shiftRight_succ {a : Code} {k : Nat} (h : a >>> k = 0#5) : a >>> (k + 1) = 0#5 := by
  rw [BitVec.shiftRight_add, h]
  rfl

/-- Setting bit `k` sets no bit at or above `k + 1`. -/
theorem code_setBit_shiftRight_succ {a : Code} {k : Nat} (h : a >>> k = 0#5) :
    (a ||| 1#5 <<< k) >>> (k + 1) = 0#5 := by
  have hbit : (1#5 <<< k) >>> (k + 1) = 0#5 := by
    ext i hi
    simp
    omega
  rw [BitVec.ushiftRight_or_distrib, code_shiftRight_succ h, hbit]
  rfl

/-- The frame part holds after a data step whose accumulator has no bit above the one just received. -/
theorem nextBit_frameInv {s : State} (hp : s.phase = .framing) (h4 : s.bitIndex.val ≤ 4)
    (hacc : s.accumulator >>> (s.bitIndex.val + 1) = 0#5) : (nextBit s).FrameInv := by
  simp [State.FrameInv, hp, bitIndex_succ h4, hacc]

/-! ### The step kinds -/

theorem execStartHit_keeps_inv {s t : State} (h : s.Inv) (he : execStartHit s = .next t) : t.Inv := by
  obtain ⟨⟨hb, ha⟩, -, -, rfl⟩ := execStartHit_next he
  obtain ⟨hconf, hdec, -, hmem⟩ := h
  obtain ⟨hc, -, hout, hcmd⟩ := hdec hb
  exact ⟨hconf, fun _ => ⟨hc, cursor_add_le ha (hconf.advances_le hc).2, hout, hcmd⟩, ⟨nofun, fun _ => rfl, nofun⟩, hmem⟩

/-- START_MISS has read a sample, so the cursor was below N. -/
theorem execStartMiss_keeps_inv {s t : State} (h : s.Inv) (he : execStartMiss s = .next t) : t.Inv := by
  obtain ⟨⟨hb, -⟩, -, ⟨w, hw, -⟩, rfl⟩ := execStartMiss_next he
  obtain ⟨hconf, hdec, hframe, hmem⟩ := h
  obtain ⟨hc, -, hout, hcmd⟩ := hdec hb
  have hlt : s.cursor.toNat + (1 : Index).toNat ≤ s.n.toNat := (sample_eq_some hw).1
  exact ⟨hconf, fun _ => ⟨hc, (cursor_add hlt).trans_le hlt, hout, hcmd⟩, hframe, hmem⟩

/-- Both data steps end in `nextBit`: it keeps the invariant where the frame part of its own result holds. -/
theorem nextBit_keeps_inv {s : State} (h : s.ConfigInv ∧ s.DecodeInv ∧ s.MemoryInv) (hr : s.Running)
    (hframe : (nextBit s).FrameInv) : (nextBit s).Inv := by
  obtain ⟨hconf, hdec, hmem⟩ := h
  obtain ⟨hb, ha⟩ := hr
  obtain ⟨hc, -, hout, hcmd⟩ := hdec hb
  exact ⟨hconf, fun _ => ⟨hc, cursor_add_le ha (hconf.advances_le hc).1, hout, hcmd⟩, hframe, hmem⟩

theorem execDataSpace_keeps_inv {s t : State} (h : s.Inv) (he : execDataSpace s = .next t) : t.Inv := by
  obtain ⟨hr, hp, h4, -, rfl⟩ := execDataSpace_next he
  obtain ⟨hconf, hdec, ⟨-, hacc, -⟩, hmem⟩ := h
  exact nextBit_keeps_inv ⟨hconf, hdec, hmem⟩ hr (nextBit_frameInv hp h4 (code_shiftRight_succ (hacc hp)))

theorem execDataMark_keeps_inv {s t : State} (h : s.Inv) (he : execDataMark s = .next t) : t.Inv := by
  obtain ⟨hr, hp, h4, -, rfl⟩ := execDataMark_next he
  obtain ⟨hconf, hdec, ⟨-, hacc, -⟩, hmem⟩ := h
  exact nextBit_keeps_inv ⟨hconf, hdec, hmem⟩ hr (nextBit_frameInv hp h4 (code_setBit_shiftRight_succ (hacc hp)))

theorem execFrameComplete_keeps_inv {s t : State} (h : s.Inv) (he : execFrameComplete s = .next t) : t.Inv := by
  obtain ⟨-, -, h5, rfl⟩ := execFrameComplete_next he
  obtain ⟨hconf, hdec, -, hmem⟩ := h
  exact ⟨hconf, hdec, ⟨nofun, nofun, fun _ => h5⟩, hmem⟩

/-- The frame part holds after either stop step, whatever the frame was. -/
theorem leaveStop_frameInv (s : State) : (leaveStop s).FrameInv := ⟨fun _ => rfl, nofun, nofun⟩

theorem execStopFail_keeps_inv {s t : State} (h : s.Inv) (he : execStopFail s = .next t) : t.Inv := by
  obtain ⟨-, -, -, rfl⟩ := execStopFail_next he
  obtain ⟨hconf, hdec, -, hmem⟩ := h
  exact ⟨hconf, hdec, leaveStop_frameInv s, hmem⟩

/-- The guard of STOP_MATCH has left room for the byte that it appends. -/
theorem execStopMatch_keeps_inv {s t : State} (h : s.Inv) (he : execStopMatch s = .next t) : t.Inv := by
  obtain ⟨⟨hb, hroom, -⟩, -, -, rfl⟩ := execStopMatch_next he
  obtain ⟨hconf, hdec, -, hout, hwin⟩ := h
  obtain ⟨hc, hcur, -, hcmd⟩ := hdec hb
  exact ⟨hconf, fun _ => ⟨hc, hcur, (outCount_succ hroom).trans_le hroom, hcmd⟩, leaveStop_frameInv _,
    Memory.wf_write s.out _ _ hout, hwin⟩

theorem stepKind_keeps_inv {s t : State} {i : Instr} (h : s.Inv) (hi : Fetch.IsStep i) (he : exec i s = .next t) :
    t.Inv := by
  rcases hi with rfl | rfl | rfl | rfl | rfl | rfl | rfl
  · exact execStartHit_keeps_inv h he
  · exact execStartMiss_keeps_inv h he
  · exact execDataSpace_keeps_inv h he
  · exact execDataMark_keeps_inv h he
  · exact execFrameComplete_keeps_inv h he
  · exact execStopFail_keeps_inv h he
  · exact execStopMatch_keeps_inv h he

/-! ### The other transitions -/

/-- Reset keeps the memories, and the rest is that of the reset state. -/
theorem takeReset_keeps_inv {s : State} (h : s.MemoryInv) : (takeReset s).Inv := by
  obtain ⟨hconf, hdec, hframe, -⟩ := resetStateKeepsInvariant
  exact ⟨hconf, hdec, hframe, h⟩

theorem endDecode_keeps_inv {s : State} (h : s.Inv) : (endDecode s).Inv := by
  obtain ⟨hconf, -, hframe, hmem⟩ := h
  exact ⟨hconf, nofun, hframe, hmem⟩

/-- An answered command leaves an idle core idle. -/
theorem respond_keeps_inv {s : State} (st : Status) (r1 r2 : Word) (h : s.Inv) (hb : s.busy = false) :
    (respond st r1 r2 s).Inv := by
  obtain ⟨hconf, -, hframe, hmem⟩ := h
  exact ⟨hconf, fun ht => absurd (hb.symm.trans ht) Bool.false_ne_true, hframe, hmem⟩

theorem startDecode_keeps_inv {s : State} (n m : Index) (h : s.Inv) (hc : s.configured = true) :
    (startDecode n m s).Inv := by
  obtain ⟨hconf, -, hframe, hmem⟩ := h
  exact ⟨hconf, fun _ => ⟨hc, Nat.zero_le _, Nat.zero_le _, rfl⟩, hframe, hmem⟩

/-- The registers of a CONFIGURE hold its derived constants, which are indices. -/
theorem setConfig_configInv (pol : Bool) {rate baud : Word} (s : State) (hi : invalidRates rate baud = false)
    (ha : admitted rate baud = true) : (setConfig pol rate baud s).ConfigInv := by
  obtain ⟨hbit, hstart, hlook⟩ := derived_lt_of_admitted ha
  exact fun _ => ⟨hi, ha, rfl, Index.toNat_ofNat hbit, Index.toNat_ofNat hstart, Index.toNat_ofNat hlook⟩

theorem configure_keeps_inv {s : State} (pol : Bool) {rate baud : Word} (h : s.Inv) (hb : s.busy = false)
    (hi : invalidRates rate baud = false) (ha : admitted rate baud = true) :
    (construct (setConfig pol rate baud s)).Inv := by
  obtain ⟨-, -, -, hmem⟩ := h
  exact ⟨setConfig_configInv pol s hi ha, fun ht => absurd (hb.symm.trans ht) Bool.false_ne_true,
    ⟨fun _ => rfl, nofun, nofun⟩, hmem⟩

/-- Settles O52, by the transitions. -/
theorem stepKeepsTheInvariant : Obligations.StepKeepsTheInvariant := by
  intro s t h hs
  cases step_transition hs with
  | reset =>
    obtain ⟨-, -, -, hmem⟩ := h
    exact takeReset_keeps_inv hmem
  | stepKind hb hf hs =>
    obtain ⟨hi, he⟩ := step_busy_run hb hf hs
    exact stepKind_keeps_inv h hi he
  | loopEnd => exact endDecode_keeps_inv h
  | configure pol _ _ hb _ hi ha => exact respond_keeps_inv .ok 0 0 (configure_keeps_inv pol h hb hi ha) hb
  | decode n m _ _ hc => exact startDecode_keeps_inv n m h hc
  | answer st r1 r2 hb => exact respond_keeps_inv st r1 r2 h hb
  | wait => exact h

end Sys2Proof.Machine

/-! ## The memories

No step writes the window, and the output is written where STOP_MATCH appends its byte (20_memory.md rules R50, R52). -/

namespace Sys2Proof.Machine

/-- Of the step kinds only STOP_MATCH can write the output, where its guard has left room. -/
theorem out_of_stepKind {s t : State} {i : Instr} (hi : Fetch.IsStep i) (he : exec i s = .next t) :
    t.out = s.out ∨ (i = .stopMatch ∧ s.outCount.toNat < s.maxOut.toNat ∧ t = stopMatched s) := by
  rcases hi with rfl | rfl | rfl | rfl | rfl | rfl | rfl
  · obtain ⟨-, -, -, rfl⟩ := execStartHit_next he
    exact .inl rfl
  · obtain ⟨-, -, -, rfl⟩ := execStartMiss_next he
    exact .inl rfl
  · obtain ⟨-, -, -, -, rfl⟩ := execDataSpace_next he
    exact .inl rfl
  · obtain ⟨-, -, -, -, rfl⟩ := execDataMark_next he
    exact .inl rfl
  · obtain ⟨-, -, -, rfl⟩ := execFrameComplete_next he
    exact .inl rfl
  · obtain ⟨-, -, -, rfl⟩ := execStopFail_next he
    exact .inl rfl
  · obtain ⟨⟨-, hroom, -⟩, -, -, rfl⟩ := execStopMatch_next he
    exact .inr ⟨rfl, hroom, rfl⟩

@[simp] theorem stopMatched_out (s : State) :
    (stopMatched s).out = Memory.write s.out s.outCount.toNat (mappedByte s.accumulator s.activeTable) := rfl

@[simp] theorem stopMatched_outCount (s : State) : (stopMatched s).outCount = s.outCount + 1 := rfl

/-- STOP_MATCH appends one byte: it writes the output at index out_count alone. -/
theorem stopMatched_sameOutputBut (s : State) : s.SameOutputBut s.outCount.toNat (stopMatched s) :=
  fun _ hne => Memory.read_write_other s.out _ hne

/-- Settles O42: of the transitions only a step kind can write the output, and of the step kinds STOP_MATCH alone, which
appends one byte. -/
theorem onlyStopMatchWritesOutput : Obligations.OnlyStopMatchWritesOutput := by
  intro s t h
  cases step_transition h with
  | stepKind hb hf hs =>
    obtain ⟨-, -, hwin, -⟩ := step_busy_keeps hb hf hs
    refine ⟨hwin, fun hne => ?_⟩
    obtain ⟨hi, he⟩ := step_busy_run hb hf hs
    rcases out_of_stepKind hi he with heq | ⟨rfl, hroom, rfl⟩
    · exact absurd heq hne
    · exact ⟨hf, stopMatched_sameOutputBut s, by simp, outCount_succ hroom⟩
  | reset | loopEnd | configure | decode | answer | wait => exact ⟨rfl, fun hne => absurd rfl hne⟩

end Sys2Proof.Machine

/-! ## The stops by name -/

namespace Sys2Proof.Machine

theorem memRead_of_not_lt {s : State} {i : Nat} (h : ¬ i < s.n.toNat) : memRead s i = none := if_neg h

theorem whileIdle_of_busy {s : State} (h : s.busy = true) (effect : Result) :
    whileIdle s effect = .refused .commandWhileBusy := if_pos h

theorem sampleStep_of_not_running {s : State} (h : ¬ s.Running) (ph : Phase) (mark : Bool) (effect : Result) :
    sampleStep ph mark s effect = .refused .stepNotAllowed := if_neg h

theorem execFrameComplete_of_not_running {s : State} (h : ¬ s.Running) :
    execFrameComplete s = .refused .stepNotAllowed := if_neg h

theorem sampleStep_of_no_sample {s : State} {ph : Phase} (hr : s.Running) (hp : s.phase = ph) (hw : s.sample = none)
    (mark : Bool) (effect : Result) : sampleStep ph mark s effect = .refused .windowIndex := by
  simp [sampleStep, hr, hp, hw]

/-- Settles O22: a command stops in `whileIdle`, a step kind in `sampleStep` (FRAME_COMPLETE in its own guard), a mapper
operation in `emit`. -/
theorem stopsNameTheirReason : Obligations.StopsNameTheirReason := by
  intro s pol rate baud w0 w1 w2 n m d c i
  refine ⟨fun hb hi => ?_, fun hr hi => ?_, fun hfull hi => ?_, fun hr hout hi => ?_⟩
  · rcases hi with rfl | rfl | rfl | rfl
    all_goals exact whileIdle_of_busy hb _
  · rcases hi with rfl | rfl | rfl | rfl | rfl | rfl | rfl
    case inr.inr.inr.inr.inl => exact execFrameComplete_of_not_running hr
    all_goals exact sampleStep_of_not_running hr _ _ _
  · rcases hi with rfl | rfl | rfl
    all_goals exact emit_of_not_lt _ (Nat.not_lt.2 hfull)
  · have hw : s.sample = none := memRead_of_not_lt (Nat.not_lt.2 hout)
    rcases hi with ⟨hp, rfl | rfl⟩ | ⟨hp, rfl | rfl⟩ | ⟨hp, rfl | rfl⟩
    all_goals exact sampleStep_of_no_sample hr hp hw _ _

end Sys2Proof.Machine

/-! ## REQIN's quotient is finite

43_host_commands.md rule R173. The core's LOOKAHEAD is an index, so SPB is below 2^32, and the divisor q2 is at least
2^(−35) or +∞ (log entry 11); a HostInt over it is finite. -/

namespace Sys2Proof.Machine

/-! ### LOOKAHEAD bounds SPB -/

theorem f64Mag_le_f64Ceil (w : Word) : f64Mag w ≤ f64Ceil w * f64One := by
  have hdiv := Nat.div_add_mod (f64Mag w + (f64One - 1)) f64One
  have hmod := Nat.mod_lt (f64Mag w + (f64One - 1)) f64One_pos
  rw [Nat.mul_comm] at hdiv
  unfold f64Ceil
  omega

/-- SPB, which is its own rounding, is at most the rounding of 8 × SPB, hence at most LOOKAHEAD. -/
theorem f64Mag_le_lookaheadOf {spb : Word} (h : PosFin spb) : f64Mag spb ≤ lookaheadOf spb * f64One := by
  have hself : f64Mag spb = magOfBits (roundRatio (f64Mag spb) 1) := by
    rw [roundRatio_f64Mag h, f64Mag_eq, Nat.mod_eq_of_lt (toNat_lt_of_pos h.pos)]
  calc f64Mag spb = magOfBits (roundRatio (f64Mag spb) 1) := hself
    _ ≤ magOfBits (roundRatio (8 * f64One * f64Mag spb) f64One) :=
        magOfBits_mono (roundRatio_mono Nat.one_pos f64One_pos (by nlinarith))
    _ = f64Mag (lookaheadProduct spb) := (f64Mag_lookaheadProduct h).symm
    _ ≤ lookaheadOf spb * f64One := f64Mag_le_f64Ceil _

theorem lookaheadOf_pos {spb : Word} (h : PosFin spb) : 0 < lookaheadOf spb :=
  Nat.pos_of_mul_pos_right ((f64Mag_pos h).trans_le (f64Mag_le_lookaheadOf h))

/-! ### Rounded quotients and powers of two -/

/-- The bits `e * 2^52` are those of 2^(e − 1023) = 2^j / 2^k. -/
theorem two_pow_mul_magOfBits {e j k : Nat} (h1 : 1 ≤ e) (he : e + k = 1023 + j) :
    2 ^ k * magOfBits (e * 2 ^ 52) = 2 ^ j * f64One := by
  have hpow : 2 ^ k * 2 ^ (e - 1) = 2 ^ j * 2 ^ 1022 := by
    rw [← Nat.pow_add, ← Nat.pow_add]
    congr 1
    omega
  rw [magOfBits_pow e h1, f64One_eq, Nat.mul_left_comm, hpow, Nat.mul_left_comm]

/-- A quotient of at least 2^j / 2^k rounds to no less. -/
theorem le_magOfBits_roundRatio {j k a d : Nat} (hj : j ≤ 1024) (hk : k ≤ 1022) (hd : 0 < d)
    (h : 2 ^ j * d ≤ 2 ^ k * a) : 2 ^ j * f64One ≤ 2 ^ k * magOfBits (roundRatio (a * f64One) d) := by
  obtain ⟨e, he⟩ : ∃ e, e + k = 1023 + j := ⟨1023 + j - k, by omega⟩
  have hmag := two_pow_mul_magOfBits (by omega) he
  rw [← hmag]
  refine Nat.mul_le_mul_left _ (magOfBits_mono (le_roundRatio_of_pow e (by omega) (by omega) hd ?_))
  rw [← magOfBits_pow e (by omega)]
  refine Nat.le_of_mul_le_mul_left ?_ (Nat.two_pow_pos k)
  calc 2 ^ k * (magOfBits (e * 2 ^ 52) * d) = 2 ^ j * d * f64One := by rw [← Nat.mul_assoc, hmag]; ring
    _ ≤ 2 ^ k * a * f64One := Nat.mul_le_mul_right _ h
    _ = 2 ^ k * (a * f64One) := Nat.mul_assoc _ _ _

/-- A quotient of at most 2^k rounds to no more. -/
theorem roundRatio_le_two_pow {k a d : Nat} (hk : k ≤ 1023) (hd : 0 < d) (h : a ≤ 2 ^ k * d) :
    roundRatio (a * f64One) d ≤ (1023 + k) * 2 ^ 52 := by
  have hmag := two_pow_mul_magOfBits (e := 1023 + k) (k := 0) (by omega) rfl
  refine roundRatio_le_of_pow _ (by omega) (by omega) hd ?_
  rw [← magOfBits_pow _ (by omega), ← Nat.one_mul (magOfBits _), ← Nat.pow_zero 2, hmag, Nat.mul_right_comm]
  exact Nat.mul_le_mul_right _ h

theorem roundRatio_lt_inf {k a d : Nat} (hk : k ≤ 1022) (hd : 0 < d) (h : a ≤ 2 ^ k * d) :
    roundRatio (a * f64One) d < f64InfBits := by
  have := roundRatio_le_two_pow (by omega) hd h
  unfold f64InfBits
  omega

/-! ### The divisor and the quotient -/

/-- +∞, or a finite word with sign 0 of at least 2^(−k). -/
def AtLeastTwoPowNeg (k : Nat) (w : Word) : Prop :=
  w = f64Pack false f64InfBits ∨ (f64IsFinite w = true ∧ f64Sign w = false ∧ f64One ≤ 2 ^ k * f64Mag w)

/-- The rounded quotient of two finite words with sign 0. -/
theorem fl64Div_atLeast {k : Nat} {a b : Word} (hk : k ≤ 1022) (ha : f64IsFinite a = true) (sa : f64Sign a = false)
    (hb : f64IsFinite b = true) (sb : f64Sign b = false) (zb : f64IsZero b = false)
    (h : f64Mag b ≤ 2 ^ k * f64Mag a) : AtLeastTwoPowNeg k (fl64Div a b) := by
  rw [fl64Div_of_finite ha hb zb sb, sa]
  rcases roundRatio_inf_or_lt (n := f64Mag a * f64One) (d := f64Mag b) with hinf | hlt
  · exact .inl (by rw [hinf])
  · refine .inr ⟨f64IsFinite_pack false hlt, f64Sign_pack false _, ?_⟩
    rw [f64Mag_pack false roundRatio_lt]
    simpa using le_magOfBits_roundRatio (j := 0) (by omega) hk (f64Mag_pos_of_not_zero zb) (by simpa using h)

theorem f64IsNaN_inf : f64IsNaN (f64Pack false f64InfBits) = false := by decide

theorem fl64Div_inf_left {b : Word} (hb : f64IsFinite b = true) (sb : f64Sign b = false) :
    fl64Div (f64Pack false f64InfBits) b = f64Pack false f64InfBits := by
  simp [fl64Div, isNaN_of_finite hb, isInf_of_finite hb, sb, f64IsInf_pack, f64Sign_pack, f64IsNaN_inf]

theorem fl64Div_inf_right {a : Word} (ha : f64IsFinite a = true) :
    fl64Div a (f64Pack false f64InfBits) = f64Pack (f64Sign a) 0 := by
  simp [fl64Div, isNaN_of_finite ha, isInf_of_finite ha, f64IsInf_pack, f64Sign_pack, f64IsNaN_inf]

/-- SPB is below 2^32, so its inverse is at least 2^(−32). -/
theorem inverse_atLeast {rate baud : Word} (hi : invalidRates rate baud = false) (ha : admitted rate baud = true) :
    AtLeastTwoPowNeg 32 (fl64Div baud rate) := by
  obtain ⟨fr, fb, hspb, -, hlook⟩ := admitted_parts ha
  obtain ⟨⟨sr, zr⟩, sb, zb⟩ := rates_of_valid hi fr fb
  have hlt : f64Mag (spbOf rate baud) < 2 ^ 32 * f64One :=
    (f64Mag_le_lookaheadOf hspb).trans_lt (Nat.mul_lt_mul_of_pos_right (by omega) f64One_pos)
  refine fl64Div_atLeast (by omega) fb sb fr sr zr (le_of_not_gt fun hgt => ?_)
  have := le_magOfBits_roundRatio (j := 32) (k := 0) (by omega) (by omega) (f64Mag_pos_of_not_zero zb)
    (by simpa using hgt.le)
  rw [spbOf, fl64Div_of_finite fr fb zb sb, f64Mag_pack _ roundRatio_lt] at hlt
  omega

theorem f64Mag_f64C742_le : f64Mag f64C742 ≤ 8 * f64One := by decide +kernel

theorem divideByC742_atLeast {w : Word} (h : AtLeastTwoPowNeg 32 w) : AtLeastTwoPowNeg 35 (fl64Div w f64C742) := by
  rcases h with rfl | ⟨hfin, hsign, hmag⟩
  · exact .inl (fl64Div_inf_left rfl rfl)
  · refine fl64Div_atLeast (by omega) hfin hsign rfl rfl rfl ?_
    have := f64Mag_f64C742_le
    omega

theorem isZero_of_f64Mag_pos {w : Word} (h : 0 < f64Mag w) : f64IsZero w = false := by
  by_contra hz
  obtain ⟨he, hf⟩ : f64Exp w = 0 ∧ f64Frac w = 0 := by simpa [f64IsZero] using hz
  simp [f64Mag, he, hf] at h

/-- A HostInt as a binary64 number is finite, of magnitude at most 2^31. -/
theorem f64OfInt_hostInt (d : HostInt) :
    f64IsFinite (f64OfInt d.toInt) = true ∧ f64Mag (f64OfInt d.toInt) ≤ 2 ^ 31 * f64One := by
  have habs : d.toInt.natAbs ≤ 2 ^ 31 * 1 := by
    have := BitVec.le_toInt d
    have := BitVec.toInt_lt (x := d)
    simp only [Config.wInt] at *
    omega
  have hmag := two_pow_mul_magOfBits (e := 1023 + 31) (k := 0) (by omega) rfl
  refine ⟨f64IsFinite_pack _ (roundRatio_lt_inf (by omega) Nat.one_pos habs), ?_⟩
  rw [f64OfInt, f64Mag_pack _ roundRatio_lt, ← hmag, Nat.pow_zero, Nat.one_mul]
  exact magOfBits_mono (roundRatio_le_two_pow (by omega) Nat.one_pos habs)

/-- A finite word of at most 2^31 over a divisor of at least 2^(−35) is finite. -/
theorem fl64Div_finite {a b : Word} (ha : f64IsFinite a = true) (hmag : f64Mag a ≤ 2 ^ 31 * f64One)
    (hb : AtLeastTwoPowNeg 35 b) : f64IsFinite (fl64Div a b) = true := by
  rcases hb with rfl | ⟨fb, sb, hle⟩
  · rw [fl64Div_inf_right ha]
    exact f64IsFinite_pack _ (by decide)
  · have hpos : 0 < f64Mag b := by
      have := f64One_pos
      omega
    rw [fl64Div_of_finite ha fb (isZero_of_f64Mag_pos hpos) sb]
    exact f64IsFinite_pack _ (roundRatio_lt_inf (k := 66) (by omega) hpos (by omega))

/-- 43_host_commands.md rule R173: REQIN's quotient is finite under every admitted configuration. -/
theorem reqinQuotient_finite {rate baud : Word} (hi : invalidRates rate baud = false) (ha : admitted rate baud = true)
    (d : HostInt) : f64IsFinite (reqinQuotient rate baud d) = true := by
  obtain ⟨hfin, hmag⟩ := f64OfInt_hostInt d
  exact fl64Div_finite hfin hmag (divideByC742_atLeast (inverse_atLeast hi ha))

theorem reqinResult_of_admitted {rate baud : Word} (hi : invalidRates rate baud = false)
    (ha : admitted rate baud = true) (d : HostInt) : ∃ v, reqinResult rate baud d = some v :=
  ⟨_, if_pos (reqinQuotient_finite hi ha d)⟩

end Sys2Proof.Machine

/-! ## Where a step answers

The transitions that `step_next` inverts, in the other direction: a state that keeps the invariant has one of them, unless
a CONFIGURE that is not admitted waits at its idle core (40_sampler.md rule R109, 60_exceptions.md rule R214). -/

namespace Sys2Proof.Machine

theorem step_reset {s : State} (hr : s.rst = true) : step s = .next (takeReset s) := by
  simp [step, fetch, hr]

theorem step_loopEnd {s : State} (hr : s.rst = false) (hb : s.busy = true) (ha : ¬ s.StepAllowed) :
    step s = .next (endDecode s) := by
  simp [step, fetch, hr, hb, ha]

theorem step_idle {s : State} (hr : s.rst = false) (hb : s.busy = false) (hc : s.cmd = none) : step s = .next s := by
  simp [step, fetch, hr, hb, hc]

/-- Inside a DECODE whose guard holds, with the cursor within the window, the step kind that the selector names is the one
whose precondition holds. -/
theorem step_running_answers {s : State} (hr : s.rst = false) (hrun : s.Running) (hc : s.cursor.toNat < s.n.toNat) :
    ∃ t, step s = .next t := by
  have ⟨hb, ha⟩ := hrun
  have ⟨hroom, _⟩ := ha
  have hw := sample_of_lt hc
  rw [step_run (fetch_running hr hb ha hc)]
  cases hp : s.phase with
  | awaitingStart =>
    cases hm : s.isMark (Window.read s.win s.cursor.toNat) <;> exact ⟨_, sampleStep_of hrun hp hw hm _⟩
  | framing =>
    by_cases h5 : s.bitIndex = 5
    · have hd : s.DataTaken := by simp [State.DataTaken, h5]
      simp only [h5, if_true]
      exact ⟨_, (if_pos hrun).trans (if_pos ⟨hp, hd⟩)⟩
    · have hd : ¬ s.DataTaken := by
        have := s.bitIndex.isLt
        simp only [State.DataTaken]
        omega
      simp only [h5, if_false]
      cases hm : s.isMark (Window.read s.win s.cursor.toNat) <;>
        exact ⟨_, (sampleStep_of hrun hp hw hm _).trans (if_neg hd)⟩
  | awaitingStop =>
    cases hm : s.isMark (Window.read s.win s.cursor.toNat)
    · exact ⟨_, sampleStep_of hrun hp hw hm _⟩
    · refine ⟨stopMatched s, (sampleStep_of hrun hp hw hm _).trans ?_⟩
      rw [mapCode_of_lt _ hroom]
      rfl

/-- The guard of an invariant state leaves LOOKAHEAD samples, at least one, after the cursor. -/
theorem cursor_lt_of_inv {s : State} (h : s.Inv) (hrun : s.Running) : s.cursor.toNat < s.n.toNat := by
  obtain ⟨hconf, hdec, -, -⟩ := h
  obtain ⟨hb, -, hguard⟩ := hrun
  obtain ⟨hc, -⟩ := hdec hb
  obtain ⟨-, ha, hspb, -, -, hlook⟩ := hconf hc
  obtain ⟨-, -, hpos, -⟩ := admitted_parts ha
  have hone : 0 < s.lookahead.toNat := by
    rw [hlook, hspb]
    exact lookaheadOf_pos hpos
  omega

/-- CONFIGURE answers, or refuses rates that are not admitted. -/
theorem execConfigure_answers {s : State} (pol : Bool) (rate baud : Word) (hb : s.busy = false) :
    (∃ t, execConfigure pol rate baud s = .next t) ∨
    (invalidRates rate baud = false ∧ admitted rate baud = false ∧
      execConfigure pol rate baud s = .refused .configNotAdmitted) := by
  unfold execConfigure
  rw [whileIdle_of hb]
  cases hi : invalidRates rate baud
  · cases ha : admitted rate baud
    · exact .inr ⟨rfl, rfl, rfl⟩
    · exact .inl ⟨_, rfl⟩
  · exact .inl ⟨_, rfl⟩

theorem execDecode_answers {s : State} (n m : Index) (hb : s.busy = false) : ∃ t, execDecode n m s = .next t := by
  unfold execDecode
  rw [whileIdle_of hb]
  cases s.configured <;> exact ⟨_, rfl⟩

/-- REQIN answers under a configuration that CONFIGURE has admitted, and under none. -/
theorem execReqin_answers {s : State} (d : HostInt) (h : s.ConfigInv) (hb : s.busy = false) :
    ∃ t, execReqin d s = .next t := by
  unfold execReqin
  rw [whileIdle_of hb]
  cases hc : s.configured
  · exact ⟨_, rfl⟩
  · obtain ⟨hi, ha, -⟩ := h hc
    obtain ⟨v, hv⟩ := reqinResult_of_admitted hi ha d
    rw [if_pos rfl, hv]
    exact ⟨_, rfl⟩

theorem execReserved_answers {s : State} (hb : s.busy = false) : ∃ t, execReserved s = .next t :=
  ⟨_, whileIdle_of hb _⟩

/-- A command that an idle core fetches is answered, or it is a CONFIGURE that is not admitted. -/
theorem exec_command_answers {s : State} {i : Instr} (h : s.ConfigInv) (hb : s.busy = false) (hf : fetch s = .run i) :
    (∃ t, exec i s = .next t) ∨
    (exec i s = .refused .configNotAdmitted ∧
      ∃ pol rate baud, fetch s = .run (.configure pol rate baud) ∧ invalidRates rate baud = false ∧
        admitted rate baud = false) := by
  rcases fetch_run_idle hb hf with ⟨pol, rate, baud, rfl⟩ | ⟨n, m, rfl⟩ | ⟨d, rfl⟩ | ⟨w0, w1, w2, rfl⟩
  · rcases execConfigure_answers pol rate baud hb with hnext | ⟨hi, ha, href⟩
    · exact .inl hnext
    · exact .inr ⟨href, pol, rate, baud, hf, hi, ha⟩
  · exact .inl (execDecode_answers n m hb)
  · exact .inl (execReqin_answers d h hb)
  · exact .inl (execReserved_answers hb)

/-- Settles O53, by what the core does next: LOOKAHEAD ≥ 1 keeps the sample of a running DECODE inside the window, and an
admitted configuration keeps REQIN's quotient finite. -/
theorem invariantStatesNeverStop : Obligations.InvariantStatesNeverStop := by
  intro s h
  cases hr : s.rst
  · cases hb : s.busy
    · cases hc : s.cmd with
      | none => exact .inl ⟨s, step_idle hr hb hc⟩
      | some c =>
        obtain ⟨hconf, -⟩ := h
        have hf := fetch_command hr hb hc
        rw [step_run hf]
        exact exec_command_answers hconf hb hf
    · by_cases ha : s.StepAllowed
      · exact .inl (step_running_answers hr ⟨hb, ha⟩ (cursor_lt_of_inv h ⟨hb, ha⟩))
      · exact .inl ⟨_, step_loopEnd hr hb ha⟩
  · exact .inl ⟨_, step_reset hr⟩

end Sys2Proof.Machine

/-! ## The encodings

30_encoding.md rules R77 to R82: what each decoder gives, case by case, and how it meets the encoder. -/

namespace Sys2Proof

/-! ### The fields of a command -/

@[simp] theorem commandWord0_op (pol : Bool) (op : BitVec 2) : (commandWord0 pol op).extractLsb' 0 2 = op := by
  revert pol op
  decide

@[simp] theorem commandWord0_pol (pol : Bool) (op : BitVec 2) : (commandWord0 pol op)[2] = pol := by
  revert pol op
  decide

@[simp] theorem commandWord0_reserved (pol : Bool) (op : BitVec 2) : (commandWord0 pol op).extractLsb' 3 61 = 0 := by
  revert pol op
  decide

@[simp] theorem Index.extractLsb'_setWidth (n : Index) : (n.setWidth 64).extractLsb' 0 Config.wIdx = n :=
  (BitVec.extractLsb'_setWidth_of_le (by decide)).trans BitVec.extractLsb'_eq_self

@[simp] theorem HostInt.extractLsb'_signExtend (d : HostInt) : (d.signExtend 64).extractLsb' 0 Config.wInt = d := by
  ext k hk
  have hk32 : k < 32 := hk
  have hk64 : k < 64 := by omega
  simp [BitVec.getElem_signExtend, hk32, hk64]

/-! ### The command decoder on each row of rule R79 -/

theorem decodeCommand_configure (pol : Bool) (rate baud : Word) :
    decodeCommand (commandWord0 pol 0b00#2) rate baud = .configure pol rate baud := by
  simp [decodeCommand]

theorem decodeCommand_decode (n m : Index) :
    decodeCommand (commandWord0 false 0b01#2) (n.setWidth 64) (m.setWidth 64) = .decode n m := by
  simp [decodeCommand]

theorem decodeCommand_reqin (d : HostInt) :
    decodeCommand (commandWord0 false 0b10#2) (d.signExtend 64) 0 = .reqin d := by
  simp [decodeCommand]

theorem decodeCommand_of_reservedWords {w0 w1 w2 : Word} (h : reservedWords w0 w1 w2 = true) :
    decodeCommand w0 w1 w2 = .reserved w0 w1 w2 := by
  rcases decodeCommand_cases w0 w1 w2 with ⟨-, e⟩ | ⟨hr, -⟩ | ⟨hr, -⟩ | ⟨hr, -⟩
  · exact e
  all_goals exact absurd (hr.symm.trans h) Bool.false_ne_true

theorem encode_decodeCommand (w0 w1 w2 : Word) : encode (decodeCommand w0 w1 w2) = .command w0 w1 w2 := by
  rcases decodeCommand_cases w0 w1 w2 with ⟨-, e⟩ | ⟨-, h0, e⟩ | ⟨-, h0, h1, h2, e⟩ | ⟨-, h0, h1, h2, e⟩
  · rw [e, encode]
  · rw [e, encode, ← h0]
  · rw [e, encode, ← h0, ← h1, ← h2]
  · rw [e, encode, ← h0, ← h1, h2]

theorem decodeCommand_wellFormed (w0 w1 w2 : Word) : wellFormed (decodeCommand w0 w1 w2) = true := by
  rcases decodeCommand_cases w0 w1 w2 with ⟨hr, e⟩ | ⟨-, -, e⟩ | ⟨-, -, -, -, e⟩ | ⟨-, -, -, -, e⟩
  · rw [e]
    exact hr
  all_goals rw [e, wellFormed]

/-! ### The mapper decoder -/

theorem decodeMapper_of_char {c : Code} (h27 : c ≠ 27#5) (h31 : c ≠ 31#5) : decodeMapper c = .mapChar c :=
  (decodeMapper_mapChar_iff c c).2 ⟨rfl, h27, h31⟩

/-- What every code decodes to. -/
theorem decodeMapper_cases (c : Code) :
    (c = 27#5 ∧ decodeMapper c = .mapFigs) ∨ (c = 31#5 ∧ decodeMapper c = .mapLtrs) ∨
    (c ≠ 27#5 ∧ c ≠ 31#5 ∧ decodeMapper c = .mapChar c) := by
  by_cases h27 : c = 27#5
  · exact .inl ⟨h27, (Laws.RowDecodes.mapFigs c).2 h27⟩
  · by_cases h31 : c = 31#5
    · exact .inr (.inl ⟨h31, (Laws.RowDecodes.mapLtrs c).2 h31⟩)
    · exact .inr (.inr ⟨h27, h31, decodeMapper_of_char h27 h31⟩)

theorem encode_decodeMapper (c : Code) : encode (decodeMapper c) = .code c := by
  rcases decodeMapper_cases c with ⟨rfl, e⟩ | ⟨rfl, e⟩ | ⟨-, -, e⟩
  all_goals rw [e, encode]

theorem decodeMapper_wellFormed (c : Code) : wellFormed (decodeMapper c) = true := by
  rcases decodeMapper_cases c with ⟨-, e⟩ | ⟨-, e⟩ | ⟨h27, h31, e⟩
  · rw [e, wellFormed]
  · rw [e, wellFormed]
  · simp [e, wellFormed, h27, h31]

/-! ### The step selector -/

theorem wellFormed_of_isStep {i : Instr} (h : Machine.Fetch.IsStep i) : wellFormed i = true := by
  rcases h with rfl | rfl | rfl | rfl | rfl | rfl | rfl <;> rfl

/-- Each of the other three phases names a step kind at both levels. -/
theorem decodeSelector_eq_none_iff (sel : BitVec 4) : decodeSelector sel = none ↔ sel.extractLsb' 2 2 = 0b11#2 := by
  have phases : ∀ ph : BitVec 2, ph = 0b00#2 ∨ ph = 0b01#2 ∨ ph = 0b10#2 ∨ ph = 0b11#2 := by decide
  unfold decodeSelector
  rcases phases (sel.extractLsb' 2 2) with h | h | h | h
  · cases sel.getLsbD 0 <;> simp [h]
  · cases sel.getLsbD 1 <;> cases sel.getLsbD 0 <;> simp [h]
  · cases sel.getLsbD 0 <;> simp [h]
  · simp [h]

/-! ### The three spaces together -/

/-- Settles O8: a step kind and a shift code have one word each, and the operands of the other rows come back from the
fields that the encoder puts them in. -/
theorem decodeGivesBackTheEncodedInstruction : Obligations.DecodeGivesBackTheEncodedInstruction := by
  intro i hwf
  cases i with
  | startHit | startMiss | dataSpace | dataMark | frameComplete | stopFail | stopMatch | mapFigs | mapLtrs => rfl
  | mapChar c =>
    obtain ⟨h27, h31⟩ : c ≠ 27#5 ∧ c ≠ 31#5 := by simpa [wellFormed] using hwf
    exact congrArg Except.ok (decodeMapper_of_char h27 h31)
  | configure pol rate baud => exact congrArg Except.ok (decodeCommand_configure pol rate baud)
  | decode n m => exact congrArg Except.ok (decodeCommand_decode n m)
  | reqin d => exact congrArg Except.ok (decodeCommand_reqin d)
  | reserved w0 w1 w2 => exact congrArg Except.ok (decodeCommand_of_reservedWords hwf)

/-- Settles O9, by what the words and the code decode to. -/
theorem encodeGivesBackTheCommandWords : Obligations.EncodeGivesBackTheCommandWords :=
  ⟨encode_decodeCommand, encode_decodeMapper⟩

/-- Settles O10, space by space. -/
theorem decodedInstructionsAreWellFormed : Obligations.DecodedInstructionsAreWellFormed := by
  intro e i h
  cases e with
  | selector sel =>
    cases hs : decodeSelector sel with
    | none => simp [decodeEncoded, hs] at h
    | some j =>
      obtain rfl : j = i := by simpa [decodeEncoded, hs] using h
      exact wellFormed_of_isStep (Machine.decodeSelector_cases hs)
  | code c =>
    cases h
    exact decodeMapper_wellFormed c
  | command w0 w1 w2 =>
    cases h
    exact decodeCommand_wellFormed w0 w1 w2

/-- Settles O11: the words are fetched as RESERVED, which an idle core answers by the error response. -/
theorem reservedWordsAreAnsweredReservedCommand : Obligations.ReservedWordsAreAnsweredReservedCommand := by
  intro s w0 w1 w2 hr hb hc hw
  rw [Machine.step_run (Machine.fetch_command hr hb hc), decodeCommand_of_reservedWords hw]
  exact Machine.whileIdle_of hb _

/-- Settles O6 by evaluating the decoders on the given words. -/
theorem wordsOfTheSpecDecode : Obligations.WordsOfTheSpecDecode := by
  unfold Obligations.WordsOfTheSpecDecode
  decide

/-- Settles O7: of the four values of PH the other three name a step kind. -/
theorem onlyTheReservedPhaseNamesNoStep : Obligations.OnlyTheReservedPhaseNamesNoStep := decodeSelector_eq_none_iff

end Sys2Proof

/-! ## The level classifier

40_sampler.md rules R100 and R101: `pos` of each class of words, and the level that the polarity makes of it. -/

namespace Sys2Proof.Machine

theorem f64Pos_of_nan {w : Word} (h : w.extractLsb' 52 11 = 0x7FF#11 ∧ w.extractLsb' 0 52 ≠ 0) : f64Pos w = false := by
  have hnum : (w.extractLsb' 52 11 == 0x7FF#11 && w.extractLsb' 0 52 != 0) = true := by simpa using h
  simp only [f64Pos, hnum, Bool.not_true, Bool.and_false]

theorem f64Pos_of_sign {w : Word} (h : w.getLsbD 63 = true) : f64Pos w = false := by
  simp [f64Pos, h]

theorem f64Pos_zero : f64Pos 0 = false := by decide

/-- A word with sign bit 0 that is no NaN and not zero: the bits below the sign bit are the whole word. -/
theorem f64Pos_of_rest {w : Word} (hnan : ¬ (w.extractLsb' 52 11 = 0x7FF#11 ∧ w.extractLsb' 0 52 ≠ 0))
    (hsign : w.getLsbD 63 = false) (hne : w ≠ 0) : f64Pos w = true := by
  have hlow : w.extractLsb' 0 63 ≠ 0 := by
    intro hlow
    refine hne (BitVec.eq_of_getLsbD_eq fun i hi => ?_)
    have hbit := congrArg (·.getLsbD i) hlow
    by_cases h63 : i = 63
    · simpa [h63] using hsign
    · have hi63 : i < 63 := by omega
      simpa [hi63] using hbit
  have hnum : (w.extractLsb' 52 11 == 0x7FF#11 && w.extractLsb' 0 52 != 0) = false := by simpa using hnan
  simp only [f64Pos, hsign, hnum, bne_iff_ne.2 hlow]
  rfl

theorem isMark_of_pos {s : State} {w : Word} (h : f64Pos w = true) : s.isMark w = s.cfgPol := by
  simp [State.isMark, h]

theorem isMark_of_not_pos {s : State} {w : Word} (h : f64Pos w = false) : s.isMark w = !s.cfgPol := by
  simp [State.isMark, h]

/-- Settles O12, class by class. -/
theorem levelFollowsSignAndPolarity : Obligations.LevelFollowsSignAndPolarity := by
  intro s w
  split_ifs with hnan hsign hzero
  · exact isMark_of_not_pos (f64Pos_of_nan hnan)
  · exact isMark_of_not_pos (f64Pos_of_sign hsign)
  · exact isMark_of_not_pos (hzero ▸ f64Pos_zero)
  · exact isMark_of_pos (f64Pos_of_rest hnan (Bool.eq_false_iff.2 hsign) hzero)

end Sys2Proof.Machine

/-! ## The derived constants of an admitted configuration -/

namespace Sys2Proof.Machine

/-- Settles O49: both advances are at most LOOKAHEAD because rounding is monotone, and LOOKAHEAD is at least SPB > 0. -/
theorem advancesFitInTheLookahead : Obligations.AdvancesFitInTheLookahead := by
  intro rate baud _ ha
  obtain ⟨-, -, hspb, -, -⟩ := admitted_parts ha
  exact ⟨lookaheadOf_pos hspb, advBitOf_le_lookaheadOf hspb, advStartOf_le_lookaheadOf hspb⟩

/-- Twice a representable magnitude is representable, at most one exponent further up: a subnormal doubles its fraction, a
normal number raises its exponent by 1. -/
theorem exists_two_mul_magOfBits (b : Nat) : ∃ c ≤ b + 2 ^ 52, magOfBits c = 2 * magOfBits b := by
  by_cases h0 : b / 2 ^ 52 = 0
  · refine ⟨2 * b, by omega, ?_⟩
    have hb : magOfBits b = b := by
      rw [magOfBits, if_pos h0]
      omega
    have hcarry : 2 * b / 2 ^ 52 = 0 ∨ 2 * b / 2 ^ 52 = 1 := by omega
    rw [hb, magOfBits]
    rcases hcarry with h | h
    · rw [if_pos h]
      omega
    · rw [if_neg (by omega), h]
      omega
  · refine ⟨b + 2 ^ 52, le_rfl, ?_⟩
    have hdiv : (b + 2 ^ 52) / 2 ^ 52 = b / 2 ^ 52 - 1 + 1 + 1 := by omega
    rw [magOfBits, magOfBits, if_neg h0, if_neg (by omega), hdiv, Nat.add_mod_right, Nat.add_sub_cancel, Nat.pow_succ]
    ring

/-- The bits of a number below 2^k. -/
theorem bits_lt_of_magOfBits_lt {b k : Nat} (h : magOfBits b < 2 ^ k * f64One) : b < (1023 + k) * 2 ^ 52 := by
  have hpow := two_pow_mul_magOfBits (e := 1023 + k) (j := k) (k := 0) (by omega) rfl
  rw [Nat.pow_zero, Nat.one_mul] at hpow
  rw [← hpow] at h
  exact lt_of_not_ge fun hle => (magOfBits_mono hle).not_gt h

/-- Settles O50: SPB is below 2^32, so doubling it three times is far from an overflow, and what is representable is its
own rounding. -/
theorem eightTimesSpbIsExact : Obligations.EightTimesSpbIsExact := by
  intro rate baud _ ha
  obtain ⟨-, -, hspb, -, hlook⟩ := admitted_parts ha
  have hmag := f64Mag_le_lookaheadOf hspb
  rw [f64Mag_lookaheadProduct hspb]
  rw [f64Mag_eq] at hmag ⊢
  generalize (spbOf rate baud).toNat % 2 ^ 63 = b at hmag ⊢
  have hbits : b < (1023 + 32) * 2 ^ 52 :=
    bits_lt_of_magOfBits_lt (hmag.trans_lt (Nat.mul_lt_mul_of_pos_right (by omega) f64One_pos))
  obtain ⟨c, hc, h2⟩ := exists_two_mul_magOfBits b
  obtain ⟨d, hd, h4⟩ := exists_two_mul_magOfBits c
  obtain ⟨e, he, h8⟩ := exists_two_mul_magOfBits d
  have height : magOfBits e = 8 * magOfBits b := by omega
  have hfits : e ≤ f64InfBits := by
    unfold f64InfBits
    omega
  rw [Nat.mul_right_comm, ← height, roundRatio_magOfBits e f64One_pos hfits]

/-- Settles O51 by evaluating the quotient, the two products and the roundings on the given words. -/
theorem truncationFidelityAt8000Over4545 : Obligations.TruncationFidelityAt8000Over4545 := by
  unfold Obligations.TruncationFidelityAt8000Over4545
  decide +kernel

end Sys2Proof.Machine

/-! ## Where a step kind runs, and how far it moves the cursor -/

namespace Sys2Proof.Machine

/-- Settles O21: the inversion lemma of each step kind names the guard and the phase. -/
theorem stepKindsNeedTheirGuardAndPhase : Obligations.StepKindsNeedTheirGuardAndPhase := by
  intro s t
  refine ⟨?_, ?_, fun h => ?_, ?_⟩
  · rintro (h | h)
    · obtain ⟨hrun, hp, -⟩ := execStartHit_next h
      exact ⟨hrun, hp⟩
    · obtain ⟨hrun, hp, -⟩ := execStartMiss_next h
      exact ⟨hrun, hp⟩
  · rintro (h | h)
    · obtain ⟨hrun, hp, h4, -⟩ := execDataMark_next h
      exact ⟨hrun, hp, h4⟩
    · obtain ⟨hrun, hp, h4, -⟩ := execDataSpace_next h
      exact ⟨hrun, hp, h4⟩
  · obtain ⟨hrun, hp, h5, -⟩ := execFrameComplete_next h
    exact ⟨hrun, hp, congrArg Fin.val h5⟩
  · rintro (h | h)
    · obtain ⟨hrun, hp, -⟩ := execStopMatch_next h
      exact ⟨hrun, hp⟩
    · obtain ⟨hrun, hp, -⟩ := execStopFail_next h
      exact ⟨hrun, hp⟩

/-- How far each step kind moves the cursor (40_sampler.md rule R106). -/
theorem cursor_of_stepKind {s t : State} {i : Instr} (hi : Fetch.IsStep i) (he : exec i s = .next t) :
    ∃ k : Index, t.cursor = s.cursor + k ∧ (k = 0 ∨ k = 1 ∨ k = s.advBit ∨ k = s.advStart) := by
  have still : s.cursor = s.cursor + 0 := (BitVec.add_zero s.cursor).symm
  rcases hi with rfl | rfl | rfl | rfl | rfl | rfl | rfl
  · obtain ⟨-, -, -, rfl⟩ := execStartHit_next he
    exact ⟨s.advStart, rfl, by simp⟩
  · obtain ⟨-, -, -, rfl⟩ := execStartMiss_next he
    exact ⟨1, rfl, by simp⟩
  · obtain ⟨-, -, -, -, rfl⟩ := execDataSpace_next he
    exact ⟨s.advBit, rfl, by simp⟩
  · obtain ⟨-, -, -, -, rfl⟩ := execDataMark_next he
    exact ⟨s.advBit, rfl, by simp⟩
  · obtain ⟨-, -, -, rfl⟩ := execFrameComplete_next he
    exact ⟨0, still, by simp⟩
  · obtain ⟨-, -, -, rfl⟩ := execStopFail_next he
    exact ⟨0, still, by simp⟩
  · obtain ⟨-, -, -, rfl⟩ := execStopMatch_next he
    exact ⟨0, still, by simp⟩

/-- LOOKAHEAD of a configured core is at least 1. -/
theorem State.ConfigInv.lookahead_pos {s : State} (h : s.ConfigInv) (hc : s.configured = true) :
    0 < s.lookahead.toNat := by
  obtain ⟨-, ha, hspb, -, -, hlook⟩ := h hc
  obtain ⟨-, -, hpos, -⟩ := admitted_parts ha
  rw [hlook, hspb]
  exact lookaheadOf_pos hpos

/-- Settles O45: every advance is at most LOOKAHEAD, which the guard leaves before N. -/
theorem cursorAdvancesForwardWithinTheWindow : Obligations.CursorAdvancesForwardWithinTheWindow := by
  rintro s t i ⟨hconf, hdec, -⟩ hb hf hs
  obtain ⟨hc, -⟩ := hdec hb
  obtain ⟨-, ⟨-, hguard⟩, hi⟩ := fetch_run_busy hb hf
  obtain ⟨-, he⟩ := step_busy_run hb hf hs
  obtain ⟨hbit, hstart⟩ := hconf.advances_le hc
  obtain ⟨k, hk, hcases⟩ := cursor_of_stepKind hi he
  have hfit : k.toNat ≤ s.lookahead.toNat := by
    rcases hcases with rfl | rfl | rfl | rfl
    · exact Nat.zero_le _
    · exact hconf.lookahead_pos hc
    · exact hbit
    · exact hstart
  have hle : s.cursor.toNat + k.toNat ≤ s.n.toNat := (Nat.add_le_add_left hfit _).trans hguard
  rw [hk, cursor_add hle]
  refine ⟨?_, hle⟩
  rcases hcases with rfl | rfl | rfl | rfl
  · exact .inl rfl
  · exact .inr (.inl rfl)
  · exact .inr (.inr (.inl rfl))
  · exact .inr (.inr (.inr rfl))

end Sys2Proof.Machine

/-! ## The steps of a frame

The step that a running DECODE takes at a readable sample, by phase and level (41_frame_decoder.md rule R120). -/

namespace Sys2Proof.Machine

section
variable {s : State} (hr : s.rst = false) (hrun : s.Running) (hc : s.cursor.toNat < s.n.toNat)
include hr hrun hc

theorem fetch_startHit (hp : s.phase = .awaitingStart) (hl : s.levelAt s.cursor.toNat = false) :
    fetch s = .run .startHit := by
  have hm : s.isMark (Window.read s.win s.cursor.toNat) = false := hl
  rw [fetch_running hr hrun.1 hrun.2 hc, hp, hm]
  rfl

theorem step_startHit (hp : s.phase = .awaitingStart) (hl : s.levelAt s.cursor.toNat = false) :
    step s = .next { s with cursor := s.cursor + s.advStart, bitIndex := 0, accumulator := 0, phase := .framing } := by
  rw [step_run (fetch_startHit hr hrun hc hp hl)]
  exact sampleStep_of hrun hp (sample_of_lt hc) hl _

/-- A data step of either kind: the accumulator gains bit `bit_index` at the level of the sample. -/
theorem step_dataBit (hp : s.phase = .framing) (h4 : s.bitIndex.val ≤ 4) :
    step s = .next (nextBit { s with
      accumulator := s.accumulator ||| (BitVec.ofBool (s.levelAt s.cursor.toNat)).setWidth 5 <<< s.bitIndex.val }) := by
  have hd : ¬ s.DataTaken := Nat.not_lt.2 h4
  have h5 : s.bitIndex ≠ 5 := fun h5 => by simp [h5] at h4
  have hf := fetch_running hr hrun.1 hrun.2 hc
  simp only [hp, h5, if_false] at hf
  rw [step_run hf]
  cases hm : s.isMark (Window.read s.win s.cursor.toNat)
  all_goals
    refine (sampleStep_of hrun hp (sample_of_lt hc) hm _).trans ((if_neg hd).trans ?_)
    simp [State.levelAt, hm]

theorem step_frameComplete (hp : s.phase = .framing) (h5 : s.bitIndex = 5) :
    step s = .next { s with phase := .awaitingStop } := by
  have hd : s.DataTaken := by simp [State.DataTaken, h5]
  have hf := fetch_running hr hrun.1 hrun.2 hc
  simp only [hp, h5, if_true] at hf
  rw [step_run hf]
  exact (if_pos hrun).trans (if_pos ⟨hp, hd⟩)

theorem step_stopFail (hp : s.phase = .awaitingStop) (hl : s.levelAt s.cursor.toNat = false) :
    step s = .next (leaveStop s) := by
  have hm : s.isMark (Window.read s.win s.cursor.toNat) = false := hl
  have hf := fetch_running hr hrun.1 hrun.2 hc
  rw [hp, hm] at hf
  rw [step_run hf]
  exact sampleStep_of hrun hp (sample_of_lt hc) hm _

theorem step_stopMatch (hp : s.phase = .awaitingStop) (hl : s.levelAt s.cursor.toNat = true) :
    step s = .next (stopMatched s) := by
  have hm : s.isMark (Window.read s.win s.cursor.toNat) = true := hl
  have hf := fetch_running hr hrun.1 hrun.2 hc
  rw [hp, hm] at hf
  rw [step_run hf]
  refine (sampleStep_of hrun hp (sample_of_lt hc) hm _).trans ?_
  rw [mapCode_of_lt _ hrun.2.1]
  rfl

end

/-- Settles O46: STOP_FAIL changes nothing that the guard, the sample or the level depends on, and it leaves the phase at
AwaitingStart, where a space sample is a START_HIT. -/
theorem failedStopRetriggersAtTheSameSample : Obligations.FailedStopRetriggersAtTheSameSample := by
  intro s hr hrun hp hc hl
  exact ⟨leaveStop s, _, step_stopFail hr hrun hc hp hl, rfl, rfl,
    fetch_startHit (s := leaveStop s) hr hrun hc rfl hl, step_startHit (s := leaveStop s) hr hrun hc rfl hl, rfl, rfl⟩

end Sys2Proof.Machine

/-! ## A whole frame

40_sampler.md rule R111: the state after each of the five data steps, and from it the eight steps of a frame. -/

namespace Sys2Proof.Machine

/-- A run goes on by one step. -/
theorem run_then_step {s t u : State} {k : Nat} (hrun : Host.Core.run Sys2Proof.core k s = .next t)
    (hs : step t = .next u) : Host.Core.run Sys2Proof.core (k + 1) s = .next u :=
  (run_add s t k 1 hrun).trans (run_succ hs 0)

/-! ### The code as it is taken, bit by bit -/

/-- The accumulator after the first `k` data bits of the frame whose START_HIT is at the cursor. -/
def State.bitsTaken (s : State) : Nat → Code
  | 0 => 0#5
  | k + 1 => s.bitsTaken k ||| (BitVec.ofBool (s.levelAt (s.frameIndex k))).setWidth 5 <<< k

theorem bitsTaken_five (s : State) : s.bitsTaken 5 = s.frameCode := by
  simp only [State.bitsTaken, State.frameCode]
  generalize s.levelAt (s.frameIndex 0) = b0
  generalize s.levelAt (s.frameIndex 1) = b1
  generalize s.levelAt (s.frameIndex 2) = b2
  generalize s.levelAt (s.frameIndex 3) = b3
  generalize s.levelAt (s.frameIndex 4) = b4
  revert b0 b1 b2 b3 b4
  decide

/-! ### The sampling positions -/

theorem frameIndex_succ (s : State) (k : Nat) : s.frameIndex (k + 1) = s.frameIndex k + s.advBit.toNat := by
  simp only [State.frameIndex]
  ring

theorem cursor_le_frameIndex (s : State) (k : Nat) : s.cursor.toNat ≤ s.frameIndex k := by
  simp only [State.frameIndex]
  omega

theorem frameIndex_mono (s : State) {j k : Nat} (h : j ≤ k) : s.frameIndex j ≤ s.frameIndex k :=
  Nat.add_le_add_left (Nat.mul_le_mul_right _ h) _

/-! ### The states inside the frame -/

/-- The state in Framing after `k` data bits: the cursor is at sampling position `k`. -/
def State.framed (s : State) (k : Nat) : State :=
  { s with
    phase := .framing
    bitIndex := Fin.ofNat 6 k
    accumulator := s.bitsTaken k
    cursor := BitVec.ofNat Config.wIdx (s.frameIndex k) }

/-- The state at the stop test of the frame. -/
def State.atStop (s : State) : State := { s.framed 5 with phase := .awaitingStop }

theorem atStop_sameConfig (s : State) : s.SameConfig s.atStop := ⟨rfl, rfl, rfl, rfl, rfl, rfl, rfl, rfl⟩

section
variable {s : State} (hr : s.rst = false) (hb : s.busy = true) (hroom : s.outCount.toNat < s.maxOut.toNat)
  (hlook : 1 ≤ s.lookahead.toNat) (hguard : s.frameIndex 5 + s.lookahead.toNat ≤ s.n.toNat)

include hlook hguard in
theorem frameIndex_lt {k : Nat} (hk : k ≤ 5) : s.frameIndex k < s.n.toNat := by
  have := frameIndex_mono s hk
  omega

include hlook hguard in
theorem framed_cursor {k : Nat} (hk : k ≤ 5) : (s.framed k).cursor.toNat = s.frameIndex k :=
  Index.toNat_ofNat ((frameIndex_lt hlook hguard hk).trans s.n.isLt)

include hb hroom hlook hguard in
theorem framed_running {k : Nat} (hk : k ≤ 5) : (s.framed k).Running := by
  refine ⟨hb, hroom, ?_⟩
  rw [framed_cursor hlook hguard hk]
  exact (Nat.add_le_add_right (frameIndex_mono s hk) _).trans hguard

include hr hb hroom hlook hguard

/-- The START_HIT at the cursor. -/
theorem step_to_framed (hp : s.phase = .awaitingStart) (hl : s.levelAt s.cursor.toNat = false) :
    step s = .next (s.framed 0) := by
  have hle := cursor_le_frameIndex s 5
  have hrun : s.Running := ⟨hb, hroom, by omega⟩
  rw [step_startHit hr hrun (by omega) hp hl]
  have hcur : s.cursor + s.advStart = BitVec.ofNat Config.wIdx (s.frameIndex 0) := by
    simp [State.frameIndex, BitVec.ofNat_add]
  rw [hcur]
  rfl

/-- A data step takes bit `k` at its sampling position. -/
theorem step_framed {k : Nat} (hk : k ≤ 4) : step (s.framed k) = .next (s.framed (k + 1)) := by
  have hk5 : k ≤ 5 := by omega
  have hcur := framed_cursor hlook hguard hk5
  have hval : (s.framed k).bitIndex.val = k := Nat.mod_eq_of_lt (by omega)
  have hbit : Fin.ofNat 6 k + 1 = Fin.ofNat 6 (k + 1) := by
    interval_cases k <;> rfl
  have hadv : BitVec.ofNat Config.wIdx (s.frameIndex k) + s.advBit =
      BitVec.ofNat Config.wIdx (s.frameIndex (k + 1)) := by
    simp [frameIndex_succ, BitVec.ofNat_add]
  rw [step_dataBit (s := s.framed k) hr (framed_running hb hroom hlook hguard hk5)
    (hcur.trans_lt (frameIndex_lt hlook hguard hk5)) rfl (hval.trans_le hk), hcur, hval]
  simp only [nextBit, State.framed, hbit, hadv, State.bitsTaken]
  rfl

/-- The five data steps. -/
theorem run_framed {k : Nat} (hk : k ≤ 5) : Host.Core.run Sys2Proof.core k (s.framed 0) = .next (s.framed k) := by
  induction k with
  | zero => rfl
  | succ k ih => exact run_then_step (ih (by omega)) (step_framed hr hb hroom hlook hguard (by omega))

/-- The seven steps from the START_HIT to the stop test. -/
theorem run_to_atStop (hp : s.phase = .awaitingStart) (hl : s.levelAt s.cursor.toNat = false) :
    Host.Core.run Sys2Proof.core 7 s = .next s.atStop := by
  have hcur := (framed_cursor hlook hguard le_rfl).trans_lt (frameIndex_lt hlook hguard le_rfl)
  have hbits := run_framed hr hb hroom hlook hguard le_rfl
  have hstop := step_frameComplete (s := s.framed 5) hr (framed_running hb hroom hlook hguard le_rfl) hcur rfl rfl
  rw [run_succ (step_to_framed hr hb hroom hlook hguard hp hl)]
  exact run_then_step hbits hstop

end

/-- Settles O58: seven steps lead to the stop test, and the eighth is STOP_MATCH or STOP_FAIL by the level there. -/
theorem frameIsDecodedFromItsSamplingPositions : Obligations.FrameIsDecodedFromItsSamplingPositions := by
  intro s hr hb hp hroom hlook hguard hl
  have hrun := run_to_atStop hr hb hroom hlook hguard hp hl
  have hrunning : s.atStop.Running := framed_running hb hroom hlook hguard le_rfl
  have hcur : s.atStop.cursor.toNat = s.frameIndex 5 := framed_cursor hlook hguard le_rfl
  have hlt : s.atStop.cursor.toNat < s.atStop.n.toNat := hcur.trans_lt (frameIndex_lt hlook hguard le_rfl)
  have hlevel : s.atStop.levelAt s.atStop.cursor.toNat = s.levelAt (s.frameIndex 5) := congrArg s.levelAt hcur
  cases hstop : s.levelAt (s.frameIndex 5)
  · exact ⟨leaveStop s.atStop, run_then_step hrun (step_stopFail hr hrunning hlt rfl (hlevel.trans hstop)),
      rfl, rfl, rfl, hcur, atStop_sameConfig s, hb, nofun, fun _ => ⟨rfl, rfl, rfl⟩⟩
  · refine ⟨stopMatched s.atStop, run_then_step hrun (step_stopMatch hr hrunning hlt rfl (hlevel.trans hstop)),
      rfl, rfl, rfl, hcur, atStop_sameConfig s, hb, fun _ => ?_, nofun⟩
    rw [← bitsTaken_five]
    exact ⟨rfl, rfl, rfl⟩

end Sys2Proof.Machine

/-! ## What each step kind does where it runs

41_frame_decoder.md rules R120 to R127: the answer of a step kind in a running DECODE, in its phase and at its level. -/

namespace Sys2Proof.Machine

/-- Settles O5: the fetched step kind is the one of the phase, `bit_index` and level. -/
theorem stepRunsTheKindOfPhaseAndLevel : Obligations.StepRunsTheKindOfPhaseAndLevel := by
  rintro s hr ⟨hb, ha⟩ hc
  rw [step_run (fetch_running hr hb ha hc)]
  cases s.phase with
  | awaitingStart => exact apply_ite (exec · s) _ _ _
  | awaitingStop => exact apply_ite (exec · s) _ _ _
  | framing =>
    have htaken : s.bitIndex = 5 ↔ s.bitIndex.val > 4 := by omega
    simp only [htaken, apply_ite (exec · s)]
    rfl

/-! ### The accumulator and the mapper's byte -/

/-- Setting bit `b` of a code leaves its other bits. -/
theorem code_setBit_getLsbD (a : Code) (b : Nat) {k : Nat} (hk : k < 5) :
    (a ||| 1#5 <<< b).getLsbD k = (a.getLsbD k || decide (k = b)) := by
  rw [BitVec.getLsbD_or, ← BitVec.twoPow_eq, BitVec.getLsbD_twoPow]
  by_cases hkb : k = b
  · subst hkb
    simp [hk]
  · simp [hkb, Ne.symm hkb]

/-- The byte appended for a shift code is 0x00, for any other code the active alphabet's entry. -/
theorem mappedByte_eq (code : Code) (table : Table) :
    mappedByte code table = if code = 27#5 ∨ code = 31#5 then 0x00#8 else tableByte table code := by
  by_cases h27 : code = 27#5
  · rw [if_pos (.inl h27), h27]
    rfl
  · by_cases h31 : code = 31#5
    · rw [if_pos (.inr h31), h31]
      rfl
    · simp [mappedByte, tableAfter, h27, h31]

/-! ### The answers -/

section
variable {s : State} (hrun : s.Running)
include hrun

theorem execDataMark_of (hp : s.phase = .framing) (h4 : s.bitIndex.val ≤ 4) (hc : s.cursor.toNat < s.n.toNat)
    (hl : s.levelAt s.cursor.toNat = true) :
    execDataMark s = .next (nextBit { s with accumulator := s.accumulator ||| (1#5 <<< s.bitIndex.val) }) :=
  (sampleStep_of hrun hp (sample_of_lt hc) hl _).trans (if_neg (Nat.not_lt.2 h4))

theorem execDataSpace_of (hp : s.phase = .framing) (h4 : s.bitIndex.val ≤ 4) (hc : s.cursor.toNat < s.n.toNat)
    (hl : s.levelAt s.cursor.toNat = false) : execDataSpace s = .next (nextBit s) :=
  (sampleStep_of hrun hp (sample_of_lt hc) hl _).trans (if_neg (Nat.not_lt.2 h4))

theorem execStopMatch_of (hp : s.phase = .awaitingStop) (hc : s.cursor.toNat < s.n.toNat)
    (hl : s.levelAt s.cursor.toNat = true) : execStopMatch s = .next (stopMatched s) := by
  have ⟨_, hroom, _⟩ := hrun
  refine (sampleStep_of hrun hp (sample_of_lt hc) hl _).trans ?_
  rw [mapCode_of_lt _ hroom]
  rfl

end

/-- Settles O13: the selector row, and the step's effect. -/
theorem startHitEntersFraming : Obligations.StartHitEntersFraming :=
  ⟨Laws.RowDecodes.startHit, fun _ hrun hp hc hl => sampleStep_of hrun hp (sample_of_lt hc) hl _⟩

/-- Settles O14: the selector row, and the step's effect. -/
theorem startMissAdvancesOneSample : Obligations.StartMissAdvancesOneSample :=
  ⟨Laws.RowDecodes.startMiss, fun _ hrun hp hc hl => sampleStep_of hrun hp (sample_of_lt hc) hl _⟩

/-- Settles O15: the selector row, and `nextBit` after one bit of the accumulator is set. -/
theorem dataMarkSetsOneBit : Obligations.DataMarkSetsOneBit :=
  ⟨Laws.RowDecodes.dataMark, fun s hrun hp h4 hc hl =>
    ⟨_, execDataMark_of hrun hp h4 hc hl, rfl, bitIndex_succ h4,
      fun _ hk => code_setBit_getLsbD s.accumulator s.bitIndex.val hk⟩⟩

/-- Settles O16: the selector row, and `nextBit` alone. -/
theorem dataSpaceSetsNoBit : Obligations.DataSpaceSetsNoBit :=
  ⟨Laws.RowDecodes.dataSpace, fun _ hrun hp h4 hc hl =>
    ⟨_, execDataSpace_of hrun hp h4 hc hl, rfl, bitIndex_succ h4⟩⟩

/-- Settles O17: the selector row, and the phase of a frame whose five bits are taken. -/
theorem frameCompleteMovesNoCursor : Obligations.FrameCompleteMovesNoCursor := by
  refine ⟨Laws.RowDecodes.frameComplete, fun s hrun hp h5 => ?_⟩
  have hd : s.DataTaken := by simp [State.DataTaken, h5]
  exact (if_pos hrun).trans (if_pos ⟨hp, hd⟩)

/-- Settles O18: the selector row, and `leaveStop` alone. -/
theorem stopFailDropsTheFrame : Obligations.StopFailDropsTheFrame :=
  ⟨Laws.RowDecodes.stopFail, fun _ hrun hp hc hl => sampleStep_of hrun hp (sample_of_lt hc) hl _⟩

/-- Settles O19: the selector row, and the mapper's byte and alphabet spelled out. -/
theorem stopMatchEmitsOneByte : Obligations.StopMatchEmitsOneByte := by
  refine ⟨Laws.RowDecodes.stopMatch, fun s hrun hp hc hl => (execStopMatch_of hrun hp hc hl).trans ?_⟩
  rw [← mappedByte_eq]
  rfl

/-- Settles O20: the mapper operation that the accumulator decodes to is `mapCode`, which STOP_MATCH runs. -/
theorem stopMatchRunsTheDecodedMapperOperation : Obligations.StopMatchRunsTheDecodedMapperOperation := by
  intro s t hrun hp hc hl he
  rw [← mapCode_eq_exec] at he
  obtain ⟨-, rfl⟩ := mapCode_next he
  exact execStopMatch_of hrun hp hc hl

end Sys2Proof.Machine

/-! ## What a step kind and a mapper operation change, case by case

The inversion lemmas in one form, from which the frames, the transition graph of rule R128 and the progress of rule R130
are read off. -/

namespace Sys2Proof.Machine

/-- What each step kind makes of a state, and the phase and `bit_index` it needs there. -/
inductive StepEffect (s : State) : Instr → State → Prop where
  | startHit (hp : s.phase = .awaitingStart) :
      StepEffect s .startHit
        { s with cursor := s.cursor + s.advStart, bitIndex := 0, accumulator := 0, phase := .framing }
  | startMiss (hp : s.phase = .awaitingStart) : StepEffect s .startMiss { s with cursor := s.cursor + 1 }
  | dataSpace (hp : s.phase = .framing) (h4 : s.bitIndex.val ≤ 4) : StepEffect s .dataSpace (nextBit s)
  | dataMark (hp : s.phase = .framing) (h4 : s.bitIndex.val ≤ 4) :
      StepEffect s .dataMark (nextBit { s with accumulator := s.accumulator ||| (1#5 <<< s.bitIndex.val) })
  | frameComplete (hp : s.phase = .framing) (h5 : s.bitIndex = 5) :
      StepEffect s .frameComplete { s with phase := .awaitingStop }
  | stopFail (hp : s.phase = .awaitingStop) : StepEffect s .stopFail (leaveStop s)
  | stopMatch (hp : s.phase = .awaitingStop) : StepEffect s .stopMatch (stopMatched s)

/-- A step kind that answers a next state has its effect. -/
theorem stepEffect_of_exec {s t : State} {i : Instr} (hi : Fetch.IsStep i) (he : exec i s = .next t) :
    StepEffect s i t := by
  rcases hi with rfl | rfl | rfl | rfl | rfl | rfl | rfl
  · obtain ⟨-, hp, -, rfl⟩ := execStartHit_next he
    exact .startHit hp
  · obtain ⟨-, hp, -, rfl⟩ := execStartMiss_next he
    exact .startMiss hp
  · obtain ⟨-, hp, h4, -, rfl⟩ := execDataSpace_next he
    exact .dataSpace hp h4
  · obtain ⟨-, hp, h4, -, rfl⟩ := execDataMark_next he
    exact .dataMark hp h4
  · obtain ⟨-, hp, h5, rfl⟩ := execFrameComplete_next he
    exact .frameComplete hp h5
  · obtain ⟨-, hp, -, rfl⟩ := execStopFail_next he
    exact .stopFail hp
  · obtain ⟨-, hp, -, rfl⟩ := execStopMatch_next he
    exact .stopMatch hp

/-- Settles O44: each step kind needs the phase at one end of its edge and leaves the phase at the other. -/
theorem phaseMovesOnlyAlongTheTransitionGraph : Obligations.PhaseMovesOnlyAlongTheTransitionGraph := by
  intro s t i hb hf hs
  obtain ⟨hi, he⟩ := step_busy_run hb hf hs
  cases stepEffect_of_exec hi he with
  | startHit hp | startMiss hp | dataSpace hp | dataMark hp | frameComplete hp | stopFail hp => simp [hp]
  | stopMatch hp => simp [hp, stopMatched]

/-- Settles O35: no effect but STOP_MATCH's touches the fields of the common frame. -/
theorem silentStepKindsFrame : Obligations.SilentStepKindsFrame := by
  intro s t i hi he
  have hstep : Fetch.IsStep i := by
    unfold Fetch.IsStep
    tauto
  cases stepEffect_of_exec hstep he with
  | stopMatch => simp at hi
  | startHit | startMiss | dataSpace | dataMark | frameComplete | stopFail =>
    refine ⟨⟨rfl, rfl, rfl, rfl, rfl, rfl, rfl, rfl⟩, rfl, rfl, rfl, rfl, rfl, fun _ => rfl, fun _ => rfl,
      ⟨rfl, rfl, rfl⟩, ?_⟩
    simp [State.SameDecoder]

/-- What STOP_MATCH and the three mapper operations make of a state: they append a byte and set an alphabet, and
STOP_MATCH alone also sets the phase and the accumulator. -/
theorem emitting_next {s t : State} {i : Instr} {c : Code}
    (hi : i = .stopMatch ∨ i = .mapFigs ∨ i = .mapLtrs ∨ i = .mapChar c) (he : exec i s = .next t) :
    s.outCount.toNat < s.maxOut.toNat ∧
    ∃ b table phase code,
      t = { appended b s with activeTable := table, phase := phase, accumulator := code } ∧
      (i ≠ .stopMatch → phase = s.phase ∧ code = s.accumulator) ∧
      (i = .mapChar c → table = s.activeTable) := by
  rcases hi with rfl | rfl | rfl | rfl
  · obtain ⟨⟨-, hroom, -⟩, -, -, rfl⟩ := execStopMatch_next he
    exact ⟨hroom, _, _, _, _, rfl, fun h => absurd rfl h, nofun⟩
  · obtain ⟨hroom, rfl⟩ := emit_next he
    exact ⟨hroom, _, _, _, _, rfl, fun _ => ⟨rfl, rfl⟩, nofun⟩
  · obtain ⟨hroom, rfl⟩ := emit_next he
    exact ⟨hroom, _, _, _, _, rfl, fun _ => ⟨rfl, rfl⟩, nofun⟩
  · obtain ⟨hroom, rfl⟩ := emit_next he
    exact ⟨hroom, _, _, _, _, rfl, fun _ => ⟨rfl, rfl⟩, fun _ => rfl⟩

/-- Settles O36: an appended byte is a write of the output at index out_count alone. -/
theorem emittingInstructionsFrame : Obligations.EmittingInstructionsFrame := by
  intro s t i c hi he
  obtain ⟨hroom, b, table, phase, code, rfl, hsame, htable⟩ := emitting_next hi he
  exact ⟨⟨rfl, rfl, rfl, rfl, rfl, rfl, rfl, rfl⟩, rfl, rfl, rfl, rfl, rfl, fun _ => rfl,
    fun _ hne => Memory.read_write_other s.out b hne, ⟨rfl, rfl, rfl⟩, outCount_succ hroom, hsame, htable⟩

end Sys2Proof.Machine

/-! ## Progress

41_frame_decoder.md rule R130. Every step of a DECODE lowers one number, `State.stepsLeft`: a step from AwaitingStart
advances the cursor, and any other step is nearer to the end of its frame. -/

namespace Sys2Proof.Machine

/-- How many more steps the frame takes until the phase is AwaitingStart again. -/
def State.frameStepsLeft (s : State) : Nat :=
  match s.phase with
  | .awaitingStart => 0
  | .framing => 7 - s.bitIndex.val
  | .awaitingStop => 1

/-- A bound on the steps a DECODE still runs: eight for each sample ahead, and the rest of the frame. -/
def State.stepsLeft (s : State) : Nat := 8 * (s.n.toNat - s.cursor.toNat) + s.frameStepsLeft

theorem frameStepsLeft_le (s : State) : s.frameStepsLeft ≤ 7 := by
  unfold State.frameStepsLeft
  split <;> omega

/-- A step kind moves the cursor or takes the frame one step nearer to its end. -/
theorem StepEffect.progress {s t : State} {i : Instr} (h : StepEffect s i t) (hadv : 1 ≤ s.advStart.toNat) :
    t.cursor ≠ s.cursor ∨ t.frameStepsLeft < s.frameStepsLeft := by
  cases h with
  | startHit =>
    have hne : s.advStart ≠ 0 := fun h0 => by simp [h0] at hadv
    exact .inl (by simpa using hne)
  | startMiss => exact .inl (by simp)
  | dataSpace hp h4 | dataMark hp h4 =>
    refine .inr ?_
    simp only [State.frameStepsLeft, nextBit_phase, nextBit_bitIndex, hp, bitIndex_succ h4]
    omega
  | frameComplete hp h5 => simp [State.frameStepsLeft, hp, h5]
  | stopFail hp | stopMatch hp => simp [State.frameStepsLeft, hp, stopMatched]

/-- What the progress argument needs of a state and every step of a DECODE keeps. -/
structure State.Progressing (s : State) : Prop where
  inv : s.Inv
  busy : s.busy = true
  advances : 1 ≤ s.advStart.toNat

theorem State.Progressing.cursor_le {s : State} (h : s.Progressing) : s.cursor.toNat ≤ s.n.toNat := by
  obtain ⟨-, hdec, -⟩ := h.inv
  obtain ⟨-, hcur, -⟩ := hdec h.busy
  exact hcur

/-- Every step of a DECODE that runs an instruction lowers `stepsLeft`. -/
theorem step_lowers_stepsLeft {s t : State} {i : Instr} (h : s.Progressing) (hf : fetch s = .run i)
    (hs : step s = .next t) : t.Progressing ∧ t.n = s.n ∧ t.stepsLeft < s.stepsLeft := by
  obtain ⟨hi, he⟩ := step_busy_run h.busy hf hs
  obtain ⟨hb, ⟨-, -, -, -, -, -, hadv, -⟩, -, -, -, -, hn, -⟩ := step_busy_keeps h.busy hf hs
  obtain ⟨hforward, hwithin⟩ := cursorAdvancesForwardWithinTheWindow s t i h.inv h.busy hf hs
  refine ⟨⟨stepKeepsTheInvariant s t h.inv hs, hb, hadv ▸ h.advances⟩, hn, ?_⟩
  have hle := frameStepsLeft_le t
  unfold State.stepsLeft
  rw [hn]
  rcases (stepEffect_of_exec hi he).progress h.advances with hne | hlt
  · have hne : t.cursor.toNat ≠ s.cursor.toNat := fun heq => hne (BitVec.eq_of_toNat_eq heq)
    omega
  · omega

/-- A run of `k` steps inside a DECODE lowers `stepsLeft` by at least `k`. -/
theorem run_lowers_stepsLeft {s t : State} {k : Nat} (h : s.Progressing)
    (hruns : ∀ j u, j < k → Host.Core.run Sys2Proof.core j s = .next u → ∃ i, fetch u = .run i)
    (hrun : Host.Core.run Sys2Proof.core k s = .next t) :
    t.Progressing ∧ t.n = s.n ∧ t.stepsLeft + k ≤ s.stepsLeft := by
  induction k generalizing s with
  | zero =>
    cases hrun
    exact ⟨h, rfl, le_rfl⟩
  | succ k ih =>
    obtain ⟨u, hu, hrest⟩ := run_succ_next hrun
    obtain ⟨i, hf⟩ := hruns 0 s (Nat.succ_pos k) rfl
    obtain ⟨hprog, hn, hlt⟩ := step_lowers_stepsLeft h hf hu
    obtain ⟨hprog', hn', hle⟩ :=
      ih hprog (fun j v hj hv => hruns (j + 1) v (Nat.succ_lt_succ hj) ((run_succ hu j).trans hv)) hrest
    exact ⟨hprog', hn'.trans hn, by omega⟩

/-- Settles O56: eight steps lower `stepsLeft` by eight, of which the frame can account for seven. -/
theorem eightStepsAdvanceTheCursor : Obligations.EightStepsAdvanceTheCursor := by
  intro s t hinv hb hadv hruns hrun
  have hs : s.Progressing := ⟨hinv, hb, hadv⟩
  obtain ⟨ht, hn, hle⟩ := run_lowers_stepsLeft hs hruns hrun
  have hcs := hs.cursor_le
  have hct := ht.cursor_le
  have hframe := frameStepsLeft_le s
  unfold State.stepsLeft at hle
  rw [hn] at hle hct
  omega

/-- Settles O57, by induction on `stepsLeft`: a DECODE whose guard holds takes a step that lowers it, and one whose guard
fails ends. -/
theorem decodeTerminatesWhenStartAdvances : Obligations.DecodeTerminatesWhenStartAdvances := by
  intro s hinv hr hb hadv
  induction hm : s.stepsLeft using Nat.strong_induction_on generalizing s with
  | _ m ih =>
  by_cases ha : s.StepAllowed
  · have hc := cursor_lt_of_inv hinv ⟨hb, ha⟩
    have hf := fetch_running hr hb ha hc
    obtain ⟨u, hu⟩ := step_running_answers hr ⟨hb, ha⟩ hc
    obtain ⟨-, -, -, hrst, -⟩ := step_busy_keeps hb hf hu
    obtain ⟨hprog, -, hlt⟩ := step_lowers_stepsLeft ⟨hinv, hb, hadv⟩ hf hu
    obtain ⟨k, t, hrun, hend⟩ :=
      ih u.stepsLeft (hm ▸ hlt) u hprog.inv (hrst.trans hr) hprog.busy hprog.advances rfl
    exact ⟨k + 1, t, (run_succ hu k).trans hrun, hend⟩
  · exact ⟨1, endDecode s, run_succ (step_loopEnd hr hb ha) 0, rfl, rfl⟩

end Sys2Proof.Machine

/-! ## The mapper operations where the output has room

42_alphabet_mapper.md rules R150 to R153. Of the tables' contents the shifts need only the entries that rule R150 fixes;
MAP_CHAR needs none. -/

namespace Sys2Proof.Machine

/-! ### The entries fixed by rule R150 -/

theorem tableByte_nullCode (table : Table) : tableByte table 0#5 = 0x00#8 := by
  cases table with
  | letters | figures => rfl

theorem tableByte_figuresShift (table : Table) : tableByte table 27#5 = 0x00#8 := by
  cases table with
  | letters | figures => rfl

theorem tableByte_lettersShift (table : Table) : tableByte table 31#5 = 0x00#8 := by
  cases table with
  | letters | figures => rfl

/-- Settles O26: the two lengths, and the fixed entries code by code. -/
theorem tablesHoldNullAtTheFixedCodes : Obligations.TablesHoldNullAtTheFixedCodes :=
  ⟨rfl, rfl, fun table => ⟨tableByte_nullCode table, tableByte_figuresShift table, tableByte_lettersShift table⟩⟩

/-! ### The three operations -/

/-- A shift selects its alphabet and appends the entry at its code, which is 0x00. -/
theorem emit_shift_of_lt {s : State} {code : Code} (table : Table) (hnull : tableByte table code = 0x00#8)
    (hroom : s.outCount.toNat < s.maxOut.toNat) :
    emit (tableByte table code) { s with activeTable := table } =
      .next (appended 0x00#8 { s with activeTable := table }) := by
  rw [hnull]
  exact emit_of_lt _ hroom

/-- Settles O23: the selector row, and the shift to the figures. -/
theorem mapFigsSelectsFiguresAndAppendsNull : Obligations.MapFigsSelectsFiguresAndAppendsNull :=
  ⟨Laws.RowDecodes.mapFigs, fun _ hroom => emit_shift_of_lt .figures (tableByte_figuresShift .figures) hroom⟩

/-- Settles O24: the selector row, and the shift to the letters. -/
theorem mapLtrsSelectsLettersAndAppendsNull : Obligations.MapLtrsSelectsLettersAndAppendsNull :=
  ⟨Laws.RowDecodes.mapLtrs, fun _ hroom => emit_shift_of_lt .letters (tableByte_lettersShift .letters) hroom⟩

/-- Settles O25: the codes that are no shift, and one appended byte. -/
theorem mapCharAppendsTheActiveTablesEntry : Obligations.MapCharAppendsTheActiveTablesEntry :=
  ⟨fun _ => decodeMapper_of_char, fun s code _ _ hroom => emit_of_lt (tableByte s.activeTable code) hroom⟩

end Sys2Proof.Machine

/-! ## What the commands answer

43_host_commands.md rules R171 to R174 at an idle core, 60_exceptions.md rules R201 and R203. -/

namespace Sys2Proof.Machine

section
variable {s : State} (hb : s.busy = false)
include hb

theorem execConfigure_of_invalid (pol : Bool) {rate baud : Word} (hi : invalidRates rate baud = true) :
    execConfigure pol rate baud s = .next (raise .invalidConfig s) :=
  (whileIdle_of hb _).trans (if_pos hi)

theorem execConfigure_of_valid (pol : Bool) {rate baud : Word} (hi : invalidRates rate baud = false) :
    execConfigure pol rate baud s =
      if admitted rate baud then .next (respond .ok 0 0 (construct (setConfig pol rate baud s)))
      else .refused .configNotAdmitted :=
  (whileIdle_of hb _).trans (if_neg (Bool.eq_false_iff.1 hi))

theorem execReqin_of_admitted (d : HostInt) (hc : s.configured = true)
    (hi : invalidRates s.cfgRate s.cfgBaud = false) (ha : admitted s.cfgRate s.cfgBaud = true) :
    execReqin d s = .next (respond .ok
      ((BitVec.ofInt Config.wInt (saturate (f64Trunc (reqinQuotient s.cfgRate s.cfgBaud d)))).signExtend 64) 0 s) := by
  have hv : reqinResult s.cfgRate s.cfgBaud d = some _ := if_pos (reqinQuotient_finite hi ha d)
  rw [execReqin, whileIdle_of hb, if_pos hc, hv]

end

/-- A zero, and a word with sign 1 that is no NaN, compare `<= 0`. -/
theorem f64LeZero_of {w : Word} (hnan : f64IsNaN w = false) (h : f64IsZero w = true ∨ f64Sign w = true) :
    f64LeZero w = true := by
  rcases h with h | h <;> simp [f64LeZero, hnan, h]

/-- Settles O27: the rates pass both checks, and the constants are those of rules R102 to R105. -/
theorem configureConstructsTheDecoder : Obligations.ConfigureConstructsTheDecoder :=
  fun _ pol _ _ hb hi ha => (execConfigure_of_valid hb pol hi).trans (if_pos ha)

/-- Settles O28: either operand that compares `<= 0` makes the rates invalid. -/
theorem configureRejectsNonPositiveRates : Obligations.ConfigureRejectsNonPositiveRates := by
  intro s pol rate baud hb h
  refine execConfigure_of_invalid hb pol ?_
  rcases h with ⟨hnan, h⟩ | ⟨hnan, h⟩
  all_goals simp [invalidRates, f64LeZero_of hnan h]

/-- Settles O29: the rates pass the first check and fail the second. -/
theorem configureRefusesWhatIsNotAdmitted : Obligations.ConfigureRefusesWhatIsNotAdmitted :=
  fun _ pol _ _ hb hi ha => (execConfigure_of_valid hb pol hi).trans (if_neg (Bool.eq_false_iff.1 ha))

/-- Settles O30: the acceptance is `startDecode`. -/
theorem decodeLatchesItsOperands : Obligations.DecodeLatchesItsOperands :=
  fun _ _ _ hb hc => (whileIdle_of hb _).trans (if_pos hc)

/-- Settles O34: RESERVED looks at nothing but busy. -/
theorem reservedIsAnsweredInAnyState : Obligations.ReservedIsAnsweredInAnyState :=
  fun _ _ _ _ hb => whileIdle_of hb _

/-- Settles O32: an admitted configuration keeps the quotient finite, so REQIN answers it. -/
theorem reqinAnswersTheTruncatedQuotient : Obligations.ReqinAnswersTheTruncatedQuotient :=
  fun _ d hb hc hi ha => ⟨reqinQuotient_finite hi ha d, execReqin_of_admitted hb d hc hi ha⟩

/-! ### What a command changes, case by case -/

/-- What each command makes of a state: it is only answered, and an error answer carries no result; or it is a CONFIGURE
that constructs the decoder, or a DECODE that is accepted. -/
inductive CommandEffect (s : State) : Instr → State → Prop where
  | answered (i : Instr) (st : Status) (r1 r2 : Word) (herr : st ≠ .ok → r1 = 0 ∧ r2 = 0) :
      CommandEffect s i (respond st r1 r2 s)
  | configured (pol : Bool) (rate baud : Word) :
      CommandEffect s (.configure pol rate baud) (respond .ok 0 0 (construct (setConfig pol rate baud s)))
  | accepted (n m : Index) : CommandEffect s (.decode n m) (startDecode n m s)

section
variable {s t : State}

theorem configure_effect {pol : Bool} {rate baud : Word} (he : exec (.configure pol rate baud) s = .next t) :
    CommandEffect s (.configure pol rate baud) t := by
  obtain ⟨-, ⟨-, rfl⟩ | ⟨-, -, rfl⟩⟩ := execConfigure_next he
  · exact .answered _ _ _ _ fun _ => ⟨rfl, rfl⟩
  · exact .configured pol rate baud

theorem decode_effect {n m : Index} (he : exec (.decode n m) s = .next t) : CommandEffect s (.decode n m) t := by
  obtain ⟨-, ⟨-, rfl⟩ | ⟨-, rfl⟩⟩ := execDecode_next he
  · exact .accepted n m
  · exact .answered _ _ _ _ fun _ => ⟨rfl, rfl⟩

theorem reqin_effect {d : HostInt} (he : exec (.reqin d) s = .next t) : CommandEffect s (.reqin d) t := by
  obtain ⟨-, ⟨-, v, -, rfl⟩ | ⟨-, rfl⟩⟩ := execReqin_next he
  · exact .answered _ _ _ _ fun hne => absurd rfl hne
  · exact .answered _ _ _ _ fun _ => ⟨rfl, rfl⟩

theorem reserved_effect {w0 w1 w2 : Word} (he : exec (.reserved w0 w1 w2) s = .next t) :
    CommandEffect s (.reserved w0 w1 w2) t := by
  obtain ⟨-, rfl⟩ := execReserved_next he
  exact .answered _ _ _ _ fun _ => ⟨rfl, rfl⟩

/-- Every instruction but a command leaves the ports. -/
theorem samePorts_or_commandEffect {i : Instr} (he : exec i s = .next t) : s.SamePorts t ∨ CommandEffect s i t := by
  cases i with
  | startHit | startMiss | dataSpace | dataMark | frameComplete | stopFail =>
    obtain ⟨-, -, -, -, -, -, -, -, hports, -⟩ := silentStepKindsFrame s t _ (by simp) he
    exact .inl hports
  | stopMatch | mapFigs | mapLtrs =>
    obtain ⟨-, -, -, -, -, -, -, -, hports, -⟩ := emittingInstructionsFrame s t _ 0 (by simp) he
    exact .inl hports
  | mapChar c =>
    obtain ⟨-, -, -, -, -, -, -, -, hports, -⟩ := emittingInstructionsFrame s t _ c (by simp) he
    exact .inl hports
  | configure => exact .inr (configure_effect he)
  | decode => exact .inr (decode_effect he)
  | reqin => exact .inr (reqin_effect he)
  | reserved => exact .inr (reserved_effect he)

end

/-- Settles O37: an answer alone touches the ports, CONFIGURE the configuration and DecoderState too, DECODE the
transaction group. -/
theorem commandsFrame : Obligations.CommandsFrame := by
  intro s t i pol rate baud w0 w1 w2 n m d hi he
  have heffect : CommandEffect s i t := by
    rcases hi with rfl | rfl | rfl | rfl
    exacts [configure_effect he, decode_effect he, reqin_effect he, reserved_effect he]
  cases heffect with
  | answered =>
    exact ⟨fun _ => rfl, fun _ => rfl, rfl, rfl, fun _ => ⟨rfl, rfl, rfl, rfl, rfl⟩,
      fun _ => ⟨⟨rfl, rfl, rfl, rfl, rfl, rfl, rfl, rfl⟩, rfl, rfl, rfl, rfl⟩⟩
  | configured =>
    exact ⟨fun _ => rfl, fun _ => rfl, rfl, rfl, fun _ => ⟨rfl, rfl, rfl, rfl, rfl⟩,
      fun hne => absurd (by simpa using hi) hne⟩
  | accepted =>
    exact ⟨fun _ => rfl, fun _ => rfl, rfl, rfl, fun hne => absurd (by simpa using hi) hne,
      fun _ => ⟨⟨rfl, rfl, rfl, rfl, rfl, rfl, rfl, rfl⟩, rfl, rfl, rfl, rfl⟩⟩

/-- Settles O38: of the effects on the ports, only an answer carries a status that is not OK, and an answer alone changes
nothing but the ports. -/
theorem errorResponsesChangeNoState : Obligations.ErrorResponsesChangeNoState := by
  intro s t i r he hport hr hne
  rcases samePorts_or_commandEffect he with ⟨-, hcmd, hrsp⟩ | heffect
  · exact absurd hport (by simp [hcmd, hrsp])
  · cases heffect with
    | answered _ st r1 r2 herr =>
      obtain rfl := Option.some.inj hr
      have hst : st ≠ .ok := by
        rintro rfl
        exact hne rfl
      exact ⟨rfl, herr hst⟩
    | configured =>
      obtain rfl := Option.some.inj hr
      exact absurd rfl hne
    | accepted => cases hr

end Sys2Proof.Machine

/-! ## The sign of REQIN's result

43_host_commands.md rule R173: q2 has sign 0, so the quotient has the sign of the argument, and neither the truncation nor
the saturation crosses zero. -/

namespace Sys2Proof.Machine

/-- Both bounds of HostInt are kept, so the saturated value is read back. -/
theorem toInt_saturate (x : Int) : (BitVec.ofInt Config.wInt (saturate x)).toInt = saturate x := by
  rw [BitVec.toInt_ofInt]
  refine Int.bmod_eq_of_le ?_ ?_ <;> simp only [saturate, Config.wInt] <;> omega

theorem saturate_zero : saturate 0 = 0 := by decide

theorem saturate_nonpos {x : Int} (h : x ≤ 0) : saturate x ≤ 0 := by
  simp only [saturate, Config.wInt]
  omega

theorem saturate_nonneg {x : Int} (h : 0 ≤ x) : 0 ≤ saturate x := by
  simp only [saturate, Config.wInt]
  omega

theorem f64Trunc_nonpos {w : Word} (h : f64Sign w = true) : f64Trunc w ≤ 0 := by
  rw [f64Trunc, if_pos h]
  omega

theorem f64Trunc_nonneg {w : Word} (h : f64Sign w = false) : 0 ≤ f64Trunc w := by
  simp [f64Trunc, h]

theorem f64Trunc_of_f64Mag_zero {w : Word} (h : f64Mag w = 0) : f64Trunc w = 0 := by
  simp [f64Trunc, f64Floor, h]

/-- Zero rounds to zero. -/
theorem magOfBits_roundRatio_zero {d : Nat} (hd : 0 < d) : magOfBits (roundRatio 0 d) = 0 := by
  have hbits := roundRatio_magOfBits 0 hd (Nat.zero_le _)
  rw [show magOfBits 0 = 0 from rfl, Nat.zero_mul] at hbits
  rw [hbits]
  rfl

/-- A finite word over a divisor with sign 0 that is no zero keeps its sign, and a zero stays a zero. -/
theorem fl64Div_sign_and_zero {k : Nat} {a b : Word} (ha : f64IsFinite a = true) (hb : AtLeastTwoPowNeg k b) :
    f64Sign (fl64Div a b) = f64Sign a ∧ (f64Mag a = 0 → f64Mag (fl64Div a b) = 0) := by
  rcases hb with rfl | ⟨fb, sb, hle⟩
  · rw [fl64Div_inf_right ha]
    exact ⟨f64Sign_pack _ _, fun _ => f64Mag_pack _ (by decide)⟩
  · have hpos : 0 < f64Mag b := Nat.pos_of_mul_pos_left (f64One_pos.trans_le hle)
    rw [fl64Div_of_finite ha fb (isZero_of_f64Mag_pos hpos) sb]
    refine ⟨f64Sign_pack _ _, fun hzero => ?_⟩
    rw [f64Mag_pack _ roundRatio_lt, hzero, Nat.zero_mul, magOfBits_roundRatio_zero hpos]

theorem f64Sign_f64OfInt (x : Int) : f64Sign (f64OfInt x) = decide (x < 0) := f64Sign_pack _ _

theorem f64Mag_f64OfInt_zero : f64Mag (f64OfInt 0) = 0 := by
  rw [f64OfInt, f64Mag_pack _ roundRatio_lt, Int.natAbs_zero, Nat.zero_mul, magOfBits_roundRatio_zero Nat.one_pos]

/-- Settles O33: the quotient is a zero or has the argument's sign, and so have its truncation and the saturated result. -/
theorem reqinSignFollowsItsArgument : Obligations.ReqinSignFollowsItsArgument := by
  intro rate baud d v hi ha hv
  obtain rfl : BitVec.ofInt Config.wInt (saturate (f64Trunc (reqinQuotient rate baud d))) = v :=
    Option.some.inj ((if_pos (reqinQuotient_finite hi ha d)).symm.trans hv)
  obtain ⟨hfin, -⟩ := f64OfInt_hostInt d
  obtain ⟨hsign, hzero⟩ : f64Sign (reqinQuotient rate baud d) = _ ∧ _ :=
    fl64Div_sign_and_zero hfin (divideByC742_atLeast (inverse_atLeast hi ha))
  rw [f64Sign_f64OfInt] at hsign
  refine ⟨?_, fun hneg => ?_, fun hpos => ?_⟩
  · rintro rfl
    have hmag : f64Mag (reqinQuotient rate baud 0) = 0 := hzero f64Mag_f64OfInt_zero
    rw [f64Trunc_of_f64Mag_zero hmag, saturate_zero]
    rfl
  · rw [toInt_saturate]
    exact saturate_nonpos (f64Trunc_nonpos (hsign.trans (decide_eq_true hneg)))
  · rw [toInt_saturate]
    exact saturate_nonneg (f64Trunc_nonneg (hsign.trans (decide_eq_false hpos.not_gt)))

end Sys2Proof.Machine

/-! ## The DECODE loop and its end

43_host_commands.md rules R172, R175 and R176. -/

namespace Sys2Proof.Machine

theorem fetch_selector {s : State} {sel : BitVec 4} {i : Instr} (hr : s.rst = false) (hrun : s.Running)
    (hsel : s.selector = some sel) (hd : decodeSelector sel = some i) : fetch s = .run i := by
  simp [fetch, hr, hrun.1, hrun.2, hsel, hd]

theorem fetch_loopEnd {s : State} (hr : s.rst = false) (hb : s.busy = true) (ha : ¬ s.StepAllowed) :
    fetch s = .loopEnd := by
  simp [fetch, hr, hb, ha]

/-- Settles O4, clause by clause. -/
theorem stepRunsTheDecodedInstruction : Obligations.StepRunsTheDecodedInstruction :=
  fun _ hr => ⟨fun _ _ hb ha hsel hd => step_run (fetch_selector hr ⟨hb, ha⟩ hsel hd),
    fun _ hb hc => step_run (fetch_command hr hb hc), step_loopEnd hr, step_idle hr⟩

/-- Settles O47: the count is at most MAX_OUT, so where the guard fails the output is full or the input is short. -/
theorem decodeEndsFullOrShortOfInput : Obligations.DecodeEndsFullOrShortOfInput := by
  rintro s ⟨-, hdec, -⟩ hr hb ha
  obtain ⟨-, -, hout, -⟩ := hdec hb
  refine ⟨?_, step_loopEnd hr hb ha⟩
  rcases hout.eq_or_lt with hfull | hroom
  · exact .inl (BitVec.eq_of_toNat_eq hfull)
  · exact .inr ⟨hroom, Nat.lt_of_not_le fun hguard => ha ⟨hroom, hguard⟩⟩

/-- Settles O48: the guard has left LOOKAHEAD samples before N, and each advance is one of the three in the maximum or 0. -/
theorem cursorEndsWithinTheConsumedBound : Obligations.CursorEndsWithinTheConsumedBound := by
  intro s t i hinv hb hf hs
  obtain ⟨-, ⟨-, hguard⟩, -⟩ := fetch_run_busy hb hf
  obtain ⟨hadvance, -⟩ := cursorAdvancesForwardWithinTheWindow s t i hinv hb hf hs
  omega

/-! ### A run over mark samples -/

theorem step_startMiss {s : State} (hr : s.rst = false) (hrun : s.Running) (hc : s.cursor.toNat < s.n.toNat)
    (hp : s.phase = .awaitingStart) (hl : s.levelAt s.cursor.toNat = true) :
    step s = .next { s with cursor := s.cursor + 1 } := by
  have hm : s.isMark (Window.read s.win s.cursor.toNat) = true := hl
  have hf := fetch_running hr hrun.1 hrun.2 hc
  rw [hp, hm] at hf
  rw [step_run hf]
  exact sampleStep_of hrun hp (sample_of_lt hc) hm _

/-- The state with the cursor at `c`. -/
def State.atCursor (s : State) (c : Nat) : State := { s with cursor := BitVec.ofNat Config.wIdx c }

theorem atCursor_cursor {s : State} {c : Nat} (h : c ≤ s.n.toNat) : (s.atCursor c).cursor.toNat = c :=
  Index.toNat_ofNat (h.trans_lt s.n.isLt)

/-- From AwaitingStart, a DECODE runs a START_MISS on each mark while the guard holds. -/
theorem run_startMisses {s : State} (hr : s.rst = false) (hb : s.busy = true) (hp : s.phase = .awaitingStart)
    (hroom : s.outCount.toNat < s.maxOut.toNat) (hlook : 0 < s.lookahead.toNat) (k : Nat)
    (hmarks : ∀ c, s.cursor.toNat ≤ c → c < s.cursor.toNat + k →
      c + s.lookahead.toNat ≤ s.n.toNat ∧ s.levelAt c = true) :
    Host.Core.run Sys2Proof.core k s = .next (s.atCursor (s.cursor.toNat + k)) := by
  induction k with
  | zero => simp [State.atCursor, Host.Core.run]
  | succ k ih =>
    obtain ⟨hguard, hlevel⟩ := hmarks (s.cursor.toNat + k) (by omega) (by omega)
    have hcur : (s.atCursor (s.cursor.toNat + k)).cursor.toNat = s.cursor.toNat + k := atCursor_cursor (by omega)
    have hmiss := step_startMiss (s := s.atCursor (s.cursor.toNat + k)) hr ⟨hb, hroom, hcur.symm ▸ hguard⟩
      (hcur.trans_lt (by show _ < s.n.toNat; omega)) hp (hcur.symm ▸ hlevel)
    refine run_then_step (ih fun c hle hlt => hmarks c hle (by omega)) (hmiss.trans ?_)
    simp [State.atCursor, BitVec.ofNat_add, BitVec.add_assoc]

/-- Settles O59: the DECODE misses the samples from which LOOKAHEAD samples are left, all of them marks, and ends at the
first one from which they are not. -/
theorem frameNearTheWindowsEndIsDeferred : Obligations.FrameNearTheWindowsEndIsDeferred := by
  rintro s e ⟨hconf, hdec, -⟩ hr hb hp hroom hle hshort hmarks
  obtain ⟨hc, hcn, -⟩ := hdec hb
  have hlook := hconf.lookahead_pos hc
  obtain ⟨stop, hstop⟩ : ∃ c, c = max s.cursor.toNat (s.n.toNat + 1 - s.lookahead.toNat) := ⟨_, rfl⟩
  have hcur : (s.atCursor stop).cursor.toNat = stop := atCursor_cursor (by omega)
  have hrun := run_startMisses hr hb hp hroom hlook (stop - s.cursor.toNat) fun c hge hlt =>
    ⟨by omega, hmarks c hge (by omega)⟩
  rw [Nat.add_sub_cancel' (by omega)] at hrun
  refine ⟨_, s.atCursor stop, hrun, hcur.trans hstop, by omega, rfl, fetch_loopEnd hr hb ?_⟩
  rintro ⟨-, hguard⟩
  rw [hcur] at hguard
  simp only [State.atCursor] at hguard
  omega

end Sys2Proof.Machine

/-! ## A stream decoded in two calls

43_host_commands.md rule R177: the relation `State.Resumes` is kept by each part of a step. -/

namespace Sys2Proof.Machine

namespace State.Resumes
variable {p q : Nat} {s t : State} (h : s.Resumes p q t)
include h

/-! ### What both runs see -/

theorem isMark_sample : t.isMark (Window.read t.win t.cursor.toNat) = s.isMark (Window.read s.win s.cursor.toNat) := by
  obtain ⟨-, -, -, hpol, -⟩ := h.config
  rw [h.window, h.cursor, State.isMark, State.isMark, hpol]

theorem running (hrun : s.Running) : t.Running := by
  obtain ⟨hb, hroom, hguard⟩ := hrun
  obtain ⟨-, -, -, -, -, -, -, hlook⟩ := h.config
  have := h.cursor
  have := h.length
  have := h.count
  have := h.capacity
  refine ⟨h.busy.trans hb, by omega, ?_⟩
  rw [hlook]
  omega

/-- Both runs are at the same step of the same frame, and at the same level. -/
theorem fetch_eq (hr : s.rst = false) (hrun : s.Running) (hs : s.cursor.toNat < s.n.toNat)
    (ht : t.cursor.toNat < t.n.toNat) : fetch t = fetch s := by
  obtain ⟨hphase, hbit, -⟩ := h.decoder
  have hrun' := h.running hrun
  rw [fetch_running hr hrun.1 hrun.2 hs, fetch_running (h.rst.trans hr) hrun'.1 hrun'.2 ht, hphase, hbit,
    h.isMark_sample]

/-! ### What keeps the relation -/

/-- Both runs put the same values into DecoderState. -/
theorem setDecoder {ph ph' : Phase} (hph : ph' = ph) {b b' : Fin 6} (hb : b' = b) {a a' : Code} (ha : a' = a)
    {tb tb' : Table} (htb : tb' = tb) :
    State.Resumes p q { s with phase := ph, bitIndex := b, accumulator := a, activeTable := tb }
      { t with phase := ph', bitIndex := b', accumulator := a', activeTable := tb' } :=
  { h with decoder := ⟨hph, hb, ha, htb⟩ }

/-- Both runs advance by the same number of samples. -/
theorem advance {k k' : Index} (hk : k' = k) (hfit : s.cursor.toNat + k.toNat ≤ s.n.toNat) :
    State.Resumes p q { s with cursor := s.cursor + k } { t with cursor := t.cursor + k' } := by
  subst hk
  have hcur := h.cursor
  have hlen := h.length
  refine { h with cursor := ?_ }
  show (s.cursor + k').toNat = (t.cursor + k').toNat + p
  rw [cursor_add hfit, cursor_add (s := t) (by omega)]
  omega

/-- Both runs append the same byte. -/
theorem append {b b' : Byte} (hb : b' = b) (hroom : s.outCount.toNat < s.maxOut.toNat) :
    State.Resumes p q (appended b s) (appended b' t) := by
  subst hb
  have hcount := h.count
  have hcap := h.capacity
  have hs := outCount_succ hroom
  have ht := outCount_succ (s := t) (by omega)
  refine { h with count := ?_, output := fun i hi => ?_ }
  · show (s.outCount + 1).toNat = (t.outCount + 1).toNat + q
    omega
  · replace hi : i < (t.outCount + 1).toNat := hi
    show Memory.read (Memory.write t.out _ _) i = Memory.read (Memory.write s.out _ _) (i + q)
    by_cases hlast : i = t.outCount.toNat
    · rw [hlast, ← hcount, Memory.read_write_same, Memory.read_write_same]
    · rw [Memory.read_write_other _ _ hlast, Memory.read_write_other _ _ (by omega)]
      exact h.output i (by omega)

/-- The same step kind keeps the relation. -/
theorem stepEffect {i : Instr} {s' t' : State} (hs : StepEffect s i s') (ht : StepEffect t i t')
    (hroom : s.outCount.toNat < s.maxOut.toNat)
    (hfit : ∀ k, k = 1 ∨ k = s.advBit ∨ k = s.advStart → s.cursor.toNat + k.toNat ≤ s.n.toNat) :
    s'.Resumes p q t' := by
  obtain ⟨hphase, hbit, hacc, htable⟩ := h.decoder
  obtain ⟨-, -, -, -, -, hadvBit, hadvStart, -⟩ := h.config
  cases hs with
  | startHit =>
    cases ht
    exact (h.advance hadvStart (hfit _ (by simp))).setDecoder rfl rfl rfl htable
  | startMiss =>
    cases ht
    exact h.advance rfl (hfit _ (by simp))
  | dataSpace =>
    cases ht
    exact (h.advance hadvBit (hfit _ (by simp))).setDecoder hphase (by rw [hbit]) hacc htable
  | dataMark =>
    cases ht
    exact (h.advance hadvBit (hfit _ (by simp))).setDecoder hphase (by rw [hbit]) (by rw [hacc, hbit]) htable
  | frameComplete =>
    cases ht
    exact h.setDecoder rfl hbit hacc htable
  | stopFail =>
    cases ht
    exact h.setDecoder rfl hbit rfl htable
  | stopMatch =>
    cases ht
    have hbyte : mappedByte t.accumulator t.activeTable = mappedByte s.accumulator s.activeTable := by rw [hacc, htable]
    have hafter : tableAfter t.accumulator t.activeTable = tableAfter s.accumulator s.activeTable := by rw [hacc, htable]
    exact (h.append hbyte hroom).setDecoder rfl hbit rfl hafter

end State.Resumes

/-- Settles O60: the resumed run sees the same phase, `bit_index` and level, so it fetches the same step kind, and the two
effects keep the relation. -/
theorem resumedDecodeRunsTheSameSteps : Obligations.ResumedDecodeRunsTheSameSteps := by
  intro p q s t s' i hinv hinv' hr hb h hf hs
  have ⟨hconf, hdec, _⟩ := hinv
  obtain ⟨hc, -⟩ := hdec hb
  obtain ⟨hbit, hstart⟩ := hconf.advances_le hc
  have ⟨_, ha, hi⟩ := fetch_run_busy hb hf
  have ⟨hroom, hguard⟩ := ha
  have hrun : s.Running := ⟨hb, ha⟩
  have hrun' := h.running hrun
  have hlt' := cursor_lt_of_inv hinv' hrun'
  have hf' : fetch t = .run i := (h.fetch_eq hr hrun (cursor_lt_of_inv hinv hrun) hlt').trans hf
  obtain ⟨t', hs'⟩ := step_running_answers (h.rst.trans hr) hrun' hlt'
  obtain ⟨-, he⟩ := step_busy_run hb hf hs
  obtain ⟨-, he'⟩ := step_busy_run hrun'.1 hf' hs'
  refine ⟨hf', t', hs', h.stepEffect (stepEffect_of_exec hi he) (stepEffect_of_exec hi he') hroom
    fun k hk => (Nat.add_le_add_left ?_ _).trans hguard⟩
  rcases hk with rfl | rfl | rfl
  exacts [hconf.lookahead_pos hc, hbit, hstart]

end Sys2Proof.Machine

/-! ## Commands without a configuration

60_exceptions.md rule R202: at an idle core the one check that DECODE and REQIN make is `configured`. -/

namespace Sys2Proof.Machine

section
variable {s : State} (hb : s.busy = false) (hc : s.configured = false)
include hb hc

theorem execDecode_of_unconfigured (n m : Index) : execDecode n m s = .next (raise .notConfigured s) :=
  (whileIdle_of hb _).trans (if_neg (Bool.eq_false_iff.1 hc))

theorem execReqin_of_unconfigured (d : HostInt) : execReqin d s = .next (raise .notConfigured s) :=
  (whileIdle_of hb _).trans (if_neg (Bool.eq_false_iff.1 hc))

end

/-- Settles O31: both commands raise NotConfigured, and `raise` writes the two ports alone. -/
theorem decodeAndReqinNeedAConfiguration : Obligations.DecodeAndReqinNeedAConfiguration :=
  fun _ n m d hb hc => ⟨execDecode_of_unconfigured hb hc n m, execReqin_of_unconfigured hb hc d⟩

end Sys2Proof.Machine

/-! ## Reset and the host

70_reset_and_hazards.md rules R220, R221 and R224. -/

namespace Sys2Proof.Machine

/-- Settles O1: the reset state is written out in the model, and its laws give each field. -/
theorem resetLeavesUnconfiguredIdleCore : Obligations.ResetLeavesUnconfiguredIdleCore :=
  ⟨reset_configured, reset_phase, reset_bitIndex, reset_accumulator, reset_activeTable, reset_busy⟩

/-- Settles O3: the step is `takeReset`, which takes over the two memories and resets the rest. -/
theorem resetEventAbandonsDecode : Obligations.ResetEventAbandonsDecode :=
  fun s hr => ⟨takeReset s, step_reset hr, takeReset_configured s, takeReset_phase s, takeReset_bitIndex s,
    takeReset_accumulator s, takeReset_activeTable s, takeReset_busy s, takeReset_rsp s, fun _ => rfl, fun _ => rfl⟩

/-! ### The host's moves

A move that the model has answers one state; each keeps `State.Inv`, whose parts speak of no port but the command port. -/

theorem hostReset_keeps_inv {s : State} (h : s.Inv) : (hostReset s).Inv := h

/-- A command is offered at an idle core only, where the DECODE part asks nothing. -/
theorem hostOffer_keeps_inv {s t : State} {c : Command} (h : s.Inv) (ho : hostOffer c s = some t) : t.Inv := by
  obtain ⟨hconf, -, hframe, hmem⟩ := h
  obtain ⟨hidle, ⟨⟩⟩ := Option.ite_none_left_eq_some.1 ho
  have hb : s.busy ≠ true := fun hb => hidle (by simp [hb])
  exact ⟨hconf, fun ht => absurd ht hb, hframe, hmem⟩

theorem hostWriteWindow_keeps_inv {s t : State} {i : Nat} {w : Word} (h : s.Inv) (ho : hostWriteWindow i w s = some t) :
    t.Inv := by
  obtain ⟨hconf, hdec, hframe, hout, hwin⟩ := h
  obtain ⟨-, ⟨⟩⟩ := Option.ite_none_left_eq_some.1 ho
  exact ⟨hconf, hdec, hframe, hout, Window.wf_write s.win i w hwin⟩

theorem hostPresentWindow_keeps_inv {s t : State} {ws : List Word} (h : s.Inv) (ho : hostPresentWindow ws s = some t) :
    t.Inv := by
  obtain ⟨hconf, hdec, hframe, hout, hwin⟩ := h
  obtain ⟨-, ⟨⟩⟩ := Option.ite_none_left_eq_some.1 ho
  exact ⟨hconf, hdec, hframe, hout, windowFrom_wf s.win 0 ws hwin⟩

theorem hostWriteOut_keeps_inv {s t : State} {i : Nat} {b : Byte} (h : s.Inv) (ho : hostWriteOut i b s = some t) :
    t.Inv := by
  obtain ⟨hconf, hdec, hframe, hout, hwin⟩ := h
  obtain ⟨-, ⟨⟩⟩ := Option.ite_none_left_eq_some.1 ho
  exact ⟨hconf, hdec, hframe, Memory.wf_write s.out i b hout, hwin⟩

theorem hostTakeResponse_keeps_inv {s t : State} {r : Response} (h : s.Inv) (ho : hostTakeResponse s = some (r, t)) :
    t.Inv := by
  unfold hostTakeResponse at ho
  split at ho
  · obtain ⟨-, rfl⟩ := Prod.mk.inj (Option.some.inj ho)
    exact h
  · cases ho

/-- Settles O54: each move keeps the invariant, by its lemma above. -/
theorem hostMovesKeepTheInvariant : Obligations.HostMovesKeepTheInvariant :=
  fun _ _ h => ⟨hostReset_keeps_inv h, fun _ => hostOffer_keeps_inv h, fun _ _ => hostWriteWindow_keeps_inv h,
    fun _ => hostPresentWindow_keeps_inv h, fun _ _ => hostWriteOut_keeps_inv h, fun _ => hostTakeResponse_keeps_inv h⟩

end Sys2Proof.Machine

/-! ## A DECODE that never ends

70_reset_and_hazards.md rule R227: with both advances 0 a frame moves no cursor, so each of its samples is the space sample
of its start, the stop test fails, and the next frame starts at the same sample. -/

namespace Sys2Proof.Machine

/-- `s` with another frame position: phase, `bit_index` and accumulator. -/
def State.withFrame (s : State) (ph : Phase) (b : Fin 6) (a : Code) : State :=
  { s with phase := ph, bitIndex := b, accumulator := a }

/-- A running DECODE at a space sample, in any phase, with both advances 0. -/
structure State.Hangs (s : State) : Prop where
  rst : s.rst = false
  running : s.Running
  advStart : s.advStart = 0
  advBit : s.advBit = 0
  inWindow : s.cursor.toNat < s.n.toNat
  space : s.levelAt s.cursor.toNat = false

namespace State.Hangs
variable {s : State} (h : s.Hangs)
include h

/-- The frame position decides nothing about the hang. -/
theorem withFrame (ph : Phase) (b : Fin 6) (a : Code) : (s.withFrame ph b a).Hangs := { h with }

/-- A step moves the frame position alone. At a space sample no step is a START_MISS or a STOP_MATCH. -/
theorem step_withFrame : ∃ ph b a, step s = .next (s.withFrame ph b a) := by
  obtain ⟨hr, hrun, hstart, hbit, hc, hl⟩ := h
  cases hp : s.phase with
  | awaitingStart =>
    have hcur : s.cursor + s.advStart = s.cursor := by simp [hstart]
    rw [step_startHit hr hrun hc hp hl, hcur]
    exact ⟨.framing, 0, 0, rfl⟩
  | framing =>
    by_cases h5 : s.bitIndex = 5
    · exact ⟨.awaitingStop, s.bitIndex, s.accumulator, step_frameComplete hr hrun hc hp h5⟩
    · have hcur : s.cursor + s.advBit = s.cursor := by simp [hbit]
      rw [step_dataBit hr hrun hc hp (by omega), nextBit, hcur]
      exact ⟨s.phase, s.bitIndex + 1, _, rfl⟩
  | awaitingStop => exact ⟨.awaitingStart, s.bitIndex, 0, step_stopFail hr hrun hc hp hl⟩

/-- So does any number of steps. -/
theorem run_withFrame (k : Nat) : ∃ ph b a, Host.Core.run Sys2Proof.core k s = .next (s.withFrame ph b a) := by
  induction k with
  | zero => exact ⟨s.phase, s.bitIndex, s.accumulator, rfl⟩
  | succ k ih =>
    obtain ⟨ph, b, a, hrun⟩ := ih
    obtain ⟨ph', b', a', hstep⟩ := (h.withFrame ph b a).step_withFrame
    exact ⟨ph', b', a', run_then_step hrun hstep⟩

end State.Hangs

/-- Settles O55: every state of the run is the first one but for its frame position. -/
theorem zeroStartAdvanceHangs : Obligations.ZeroStartAdvanceHangs := by
  intro s hr hrun hstart hbit _ hc hl k
  obtain ⟨ph, b, a, hk⟩ := State.Hangs.run_withFrame ⟨hr, hrun, hstart, hbit, hc, hl⟩ k
  exact ⟨s.withFrame ph b a, hk, hrun.1, rfl, rfl, rfl, rfl⟩

end Sys2Proof.Machine
